-- ==== Sys2Proof/Word.lean ====
section
/-! DEFINITION. The two word types of the engine: the byte of the image buffer and of a source pattern
(spec/00_scope.md R9), and the 64-bit command word (spec/30_encoding.md R50). -/

namespace Sys2Proof

/-- A byte: an 8-bit value, bit 0 the least significant (value bit numbering, R9). -/
abbrev Byte := BitVec 8

/-- One command word of exactly 64 bits (R50), bit 0 the least significant (R51). -/
abbrev Word := BitVec 64

end Sys2Proof
end

