-- ==== Sys2Proof/Config.lean ====
section
/-! DEFINITION. The implementation parameters of spec/00_scope.md R4 to R8: the component kinds, the width option of
the alphanumeric kind, the constants of R7, and the parameters the spec leaves open. Those last are opaque
constants, so that no proof can see a value of them. -/

namespace Sys2Proof

/-- `ComponentKind` (R4). -/
inductive ComponentKind where
  | sevenSegment
  | sevenSegmentInverted
  | alpha16
  | led
  | matrix5x7
deriving DecidableEq, Repr

/-- The two admitted values of `ALPHA_WIDTH` (R5): 16, the default, and 14. -/
inductive AlphaWidth where
  | w16
  | w14
deriving DecidableEq, Repr

/-- The name of one choice of the parameters whose values the spec leaves open: `SEG7` and `SEG16` (R6) and `LATCH_HOLD`
(R8). The opaque constants below give each name its choice. Two names may stand for the same or for different choices; nothing
can be proved of it (log 5). -/
abbrev ParameterSet := Nat

/-- What is fixed when an engine is constructed, the inputs of a reset (R4 to R8, spec/70_reset_and_hazards.md R150, R153): the
ordered kind list `KINDS`, `ALPHA_WIDTH`, and the choice of the open parameters. R7's are constants of the implementation. -/
structure Configuration where
  kinds      : List ComponentKind
  alphaWidth : AlphaWidth
  parameters : ParameterSet
deriving DecidableEq, Repr

/-- A source pattern: `SRC_BYTES = 5` bytes, `src[0]` first, left-justified (R7, spec/10_state.md R14). -/
abbrev SourcePattern := Vector Byte 5

namespace Config

/-- `SRC_BYTES` (R7). -/
abbrev srcBytes : Nat := 5
/-- `MAX_WIDTH = 8 * SRC_BYTES` (R7). -/
abbrev maxWidth : Nat := 40
/-- `OFF_BITS` (R7). -/
abbrev offBits : Nat := 14
/-- `WIDTH_BITS` (R7). -/
abbrev widthBits : Nat := 6
/-- `IDX_BITS` (R7). -/
abbrev idxBits : Nat := 8
/-- `VAL_BITS` (R7). -/
abbrev valBits : Nat := 8
/-- `NMAX` (R4, R7). -/
abbrev nmax : Nat := 256

/-- Which character codes the 7-segment table knows. OPEN (R6, D16; log 5). -/
opaque seg7Known : ParameterSet → Byte → Bool
/-- The 7-segment table's entries for the codes it knows, less the one the source gives. OPEN (R6, D16; log 5). -/
opaque seg7Table : ParameterSet → Byte → Byte
/-- Which character codes the 16-segment table knows. OPEN (R6, D16; log 5). -/
opaque seg16Known : ParameterSet → Byte → Bool
/-- The 16-segment table's entries for the codes it knows. OPEN (R6, D16; log 5). -/
opaque seg16Table : ParameterSet → Byte → BitVec 16
/-- The optional fallback of the 16-segment table (spec/42_set_encoder.md R105): the one segment an unknown code lights,
or none where there is no fallback for that code. OPEN (C8, U5; log 5). -/
opaque seg16Fallback : ParameterSet → Byte → Option (Fin 16)
/-- `LATCH_HOLD` (R8), in a unit the source does not name. OPEN (D23); no rule reads it, and nothing here does (log 11). -/
opaque latchHold : ParameterSet → Nat

/-- The configuration of `State.reset`: the layout of the source's scenario A (spec/95_test_vectors.md S1), the default width,
and the open parameters named 0. DESIGN CHOICE, unsafe (log 3): the spec leaves `KINDS` open. -/
def initial : Configuration where
  kinds := [.sevenSegment, .led, .sevenSegment]
  alphaWidth := .w16
  parameters := 0

end Config
end Sys2Proof
end

