-- ==== Sys2Proof/Syntax.lean ====
section
/-! DEFINITION. The commands of the engine, one constructor per row of spec/opcode_table.json
(spec/30_encoding.md R52 to R56). Operands are unsigned numbers, none sign-extended, scaled or shifted (R56);
`WellFormed.lean` says which fit their fields. -/

namespace Sys2Proof

/-- A command. -/
inductive Instr where
  /-- `WRF off, width, src` (Format W, R52): the field width in bits, the destination image bit offset, the source
  pattern. -/
  | wrf (width : Nat) (off : Nat) (src : SourcePattern)
  /-- `SET idx, val` (Format S, R53): the component index and the 8-bit character code. -/
  | set (idx : Nat) (val : Byte)
  /-- `UPD` (Format U, R54). -/
  | upd
deriving DecidableEq, Repr

end Sys2Proof
end

