-- ==== Sys2Proof/WellFormed.lean ====
section
/-! DEFINITION. Which commands have operands that fit their fields (spec/30_encoding.md R52, R53 and R63: "whose operands
fit their fields"). A well-formed `WRF` may still fault when executed: a width of 0 or above 40 is a legal
encoding (R57). -/

namespace Sys2Proof

/-- The operands fit the fields of the command word: `width` 6 bits, `off` 14 bits, `idx` 8 bits; `val` and the five
source bytes fit by their types. -/
def Instr.wellFormed : Instr → Bool
  | .wrf width off _ => decide (width < 2 ^ Config.widthBits) && decide (off < 2 ^ Config.offBits)
  | .set idx _ => decide (idx < 2 ^ Config.idxBits)
  | .upd => true

end Sys2Proof
end

