-- ==== Sys2Proof/Decode.lean ====
section
/-! DEFINITION. The decoder `Decode`, the encoder `Encode` and the opcode table's rows (spec/30_encoding.md R50 to R63,
spec/opcode_table.json). Decoding is total on 64-bit words and rejects by name. -/

namespace Sys2Proof

/-- Why a word decodes to `ILLEGAL` (R57, R58). Both raise `E_ILLEGAL` when the word is issued. -/
inductive DecodeReject where
  /-- The opcode is `0x0` or `0x4` to `0xF` (R58). -/
  | undefinedOpcode (op : Nat)
  /-- A reserved field of a `SET` or `UPD` word is not zero (R57). -/
  | reservedNotZero
deriving DecidableEq, Repr

/-- The field `cw[hi:lo]` as an unsigned number (R51). -/
def bitField (cw : Word) (hi lo : Nat) : Nat :=
  (cw.extractLsb' lo (hi + 1 - lo)).toNat

/-- The byte `cw[lo+7:lo]`. -/
def byteField (cw : Word) (lo : Nat) : Byte :=
  cw.extractLsb' lo 8

/-- The source pattern of a Format W word: `src[i] = cw[39 - 8*i : 32 - 8*i]` (R56). -/
def sourceOf (cw : Word) : SourcePattern :=
  #v[byteField cw 32, byteField cw 24, byteField cw 16, byteField cw 8, byteField cw 0]

/-- `Decode` (R63). -/
def decode (cw : Word) : Except DecodeReject Instr :=
  match bitField cw 63 60 with
  | 1 => .ok (.wrf (bitField cw 59 54) (bitField cw 53 40) (sourceOf cw))
  | 2 =>
    if bitField cw 43 0 = 0 then .ok (.set (bitField cw 59 52) (byteField cw 44))
    else .error .reservedNotZero
  | 3 => if bitField cw 59 0 = 0 then .ok .upd else .error .reservedNotZero
  | op => .error (.undefinedOpcode op)

/-- The five bytes of a source pattern as the 40-bit number `cw[39:0]`, `src[0]` most significant (R63). -/
def sourceNumber (src : SourcePattern) : Nat :=
  src[0].toNat * 2 ^ 32 + src[1].toNat * 2 ^ 24 + src[2].toNat * 2 ^ 16 + src[3].toNat * 2 ^ 8 + src[4].toNat

/-- `Encode` (R63). Its value means something for well-formed commands only (log 20). -/
def encode : Instr → Word
  | .wrf width off src => BitVec.ofNat 64 (1 * 2 ^ 60 + width * 2 ^ 54 + off * 2 ^ 40 + sourceNumber src)
  | .set idx val => BitVec.ofNat 64 (2 * 2 ^ 60 + idx * 2 ^ 52 + val.toNat * 2 ^ 44)
  | .upd => BitVec.ofNat 64 (3 * 2 ^ 60)

/-- The "match" entry of the command's row in spec/opcode_table.json. -/
def rowMatch : Instr → Word
  | .wrf _ _ _ => 0x1000000000000000#64
  | .set _ _ => 0x2000000000000000#64
  | .upd => 0x3000000000000000#64

/-- The "mask" entry of the command's row in spec/opcode_table.json: the opcode and the reserved bits. -/
def rowMask : Instr → Word
  | .wrf _ _ _ => 0xF000000000000000#64
  | .set _ _ => 0xF0000FFFFFFFFFFF#64
  | .upd => 0xFFFFFFFFFFFFFFFF#64

/-- The command word whose low `nbits` bits are those of `w` and whose other bits are 0. A command is one 64-bit word,
so the table's bit numbers are those of `cw` (R51). -/
def tableWord (nbits w : Nat) : Word :=
  BitVec.ofNat 64 (w % 2 ^ nbits)

/-- The host's view of the decoder: the command of an opcode-table word, none where it is illegal. -/
def decodeTableWord (nbits w : Nat) : Option Instr :=
  match decode (tableWord nbits w) with
  | .ok i => some i
  | .error _ => none

end Sys2Proof
end

