-- ==== Sys2Proof/Machine/LayoutBuilder.lean ====
section
/-! DEFINITION. The Layout Builder (spec/40_layout_builder.md R70 to R78): the pure function `build` that reset evaluates
over the configured kind list, and the one width function `W` (spec/00_scope.md R5, R71). -/

namespace Sys2Proof.Machine

/-- The width `ALPHA_WIDTH` of the alphanumeric kind in bits (R5). -/
def alphaBits : AlphaWidth → Nat
  | .w16 => 16
  | .w14 => 14

/-- `W(kind)` (R5): the one width function, used by the Layout Builder and by `SET` alike (R71, C3). -/
def kindWidth (aw : AlphaWidth) : ComponentKind → Nat
  | .sevenSegment => 8
  | .sevenSegmentInverted => 8
  | .alpha16 => alphaBits aw
  | .led => 1
  | .matrix5x7 => 35

/-- The layout table (spec/10_state.md R12): `KIND`, `OFFS`, `N`, `TOTAL_BITS`, `BUFLEN`. -/
structure Layout where
  kind      : List ComponentKind
  offs      : List Nat
  n         : Nat
  totalBits : Nat
  bufLen    : Nat
deriving DecidableEq, Repr

/-- The single pass of R72: records the running bit counter as each component's offset before adding that component's
width. Answers the offsets and the final counter. -/
def buildOffsets (aw : AlphaWidth) : Nat → List ComponentKind → List Nat × Nat
  | counter, [] => ([], counter)
  | counter, k :: ks =>
    let rest := buildOffsets aw (counter + kindWidth aw k) ks
    (counter :: rest.1, rest.2)

/-- A number of bits rounded up to whole bytes: `ceil(bits / 8)` (R72, C9). -/
def bytesFor (bits : Nat) : Nat :=
  (bits + 7) / 8

/-- `build(kinds)` (R70, R72). -/
def build (aw : AlphaWidth) (kinds : List ComponentKind) : Layout where
  kind := kinds
  offs := (buildOffsets aw 0 kinds).1
  n := kinds.length
  totalBits := (buildOffsets aw 0 kinds).2
  bufLen := bytesFor (buildOffsets aw 0 kinds).2

end Sys2Proof.Machine
end

