-- ==== Sys2Proof/Machine/State.lean ====
section
/-! DEFINITION. The state of one engine (spec/10_state.md R10 to R23), its reset (R22, spec/70_reset_and_hazards.md R151),
and the reasons a step can stop. -/

namespace Sys2Proof.Machine

/-- The image buffer's contents: pairs (byte address, byte), addresses strictly rising, no byte 0x00 listed. An address
that is not listed reads as 0x00, the reset contents (R11, R22; log 6). -/
abbrev Memory := List Host.Cell

/-- The causes of R131 that halt the engine (spec/60_exceptions.md). -/
inductive FaultCause where
  /-- `E_INDEX`: a `SET` whose `idx` is not below `N` (R132). -/
  | index
  /-- `E_BOUNDS`: a `WRF` whose field would pass the end of the buffer (R133). -/
  | bounds
  /-- `E_WIDTH`: a `WRF` whose width is 0 or above `MAX_WIDTH` (R134). -/
  | width
  /-- `E_ILLEGAL`: a word that decodes to `ILLEGAL` (R135). -/
  | illegal
deriving DecidableEq, Repr

/-- The response to one command (spec/30_encoding.md R62): no other value is ever returned. -/
inductive Response where
  | ok
  | fault (c : FaultCause)
  /-- `E_HALTED` (R136). -/
  | halted
deriving DecidableEq, Repr

/-- `STATUS` (R16): `ERR` and the 4-bit `CAUSE`. -/
structure Status where
  err   : Bool
  cause : BitVec 4
deriving DecidableEq, Repr

/-- A wire event (R17). -/
inductive WireEvent where
  | shift (b : Bool)
  | latchHigh
  | latchLow
deriving DecidableEq, Repr

/-- What the host may do (spec/70_reset_and_hazards.md R162): issue one command word, or reset with a stable
configuration. -/
inductive HostAction where
  | command (cw : Word)
  | reset (cfg : Configuration)
deriving DecidableEq, Repr

/-- The state of one engine instance: the five items of R10, and the model's own four fields at the end. -/
structure State where
  /-- `IMG` (R11). -/
  img        : Memory
  /-- The layout table (R12). -/
  layout     : Layout
  /-- `STATUS` (R16). -/
  status     : Status
  /-- `WIRE` (R17), oldest event first. -/
  wire       : List WireEvent
  /-- `LATCH` (R17): true is the level 1. -/
  latch      : Bool
  /-- The instance's `ALPHA_WIDTH` (R5): the model's own field (log 4). No command writes it. -/
  alphaWidth : AlphaWidth
  /-- The instance's choice of the open parameters `SEG7`, `SEG16` and `LATCH_HOLD` (R6, R8): the model's own field (log 4). No
  command writes it. -/
  parameters : ParameterSet
  /-- The host actions not yet taken, next one first: the model's own field (log 1). -/
  port       : List HostAction
  /-- The responses returned since reset, oldest first (spec/70_reset_and_hazards.md R161): the model's own field
  (log 2). -/
  responses  : List Response
deriving DecidableEq, Repr

/-- The model's own stops: bounds checks that the spec's rules discharge. None is raised from a state that meets the
invariant `EngineInv` of Safety.lean; all are safe (log 9). -/
inductive Fault where
  /-- The `assert 0 <= a < BUFLEN` of spec/20_memory.md R34, or a byte read there, fails: raised by `memRead` and
  `memWrite`. Safe. -/
  | imageAddress (a : Nat)
  /-- A source byte past `SRC_BYTES` would be read: raised by `maskedSource`. Safe. -/
  | sourceIndex (i : Nat)
  /-- `KIND[i]` or `OFFS[i]` is missing for an `i` below `N`: raised by `execSet`. Safe. -/
  | layoutIndex (i : Nat)
deriving DecidableEq, Repr

/-- What the model gives no meaning. -/
inductive Refusal where
  /-- An instruction without a meaning yet: raised by no arm of `exec`. Safe. -/
  | notModelled (mnemonic : String)
  /-- A reset with more than `NMAX` kinds: "a model refuses to construct such an instance" (spec/40_layout_builder.md
  R75). Raised by `applyReset`. Safe. -/
  | tooManyKinds (n : Nat)
deriving DecidableEq, Repr

/-- The state right after a reset with configuration `cfg` (R22, R151), with nothing on the port. -/
def State.resetWith (cfg : Configuration) : State where
  img := []
  layout := build cfg.alphaWidth cfg.kinds
  status := ⟨false, 0#4⟩
  wire := []
  latch := false
  alphaWidth := cfg.alphaWidth
  parameters := cfg.parameters
  port := []
  responses := []

/-- The machine right after reset, for the configuration `Config.initial` (DESIGN CHOICE, log 3). -/
def State.reset : State :=
  State.resetWith Config.initial

end Sys2Proof.Machine
end

