-- ==== Sys2Proof/Machine/Flags.lean ====
section
/-! DEFINITION. The engine's only flag register, `STATUS` (spec/10_state.md R16), and the codes of causes and responses
(spec/60_exceptions.md R131, spec/30_encoding.md R62). No command computes a condition code (R16, R94, R109, R122). -/

namespace Sys2Proof.Machine

/-- The numeric cause code of R131. -/
def FaultCause.code : FaultCause → BitVec 4
  | .index => 0x1#4
  | .bounds => 0x2#4
  | .width => 0x3#4
  | .illegal => 0x4#4

/-- The 4-bit response of R62. -/
def Response.code : Response → BitVec 4
  | .ok => 0x0#4
  | .fault c => c.code
  | .halted => 0xF#4

/-- `STATUS` after `raise Fault(c)` (R139). -/
def Status.halt (c : FaultCause) : Status :=
  ⟨true, c.code⟩

end Sys2Proof.Machine
end

