-- ==== Sys2Proof/Machine/Ops.lean ====
section
/-! DEFINITION. The named operations over the state: the image buffer's read, write and masked merge
(spec/20_memory.md R30 to R36), fault entry and its way out, reset (spec/60_exceptions.md R139, R141), the response, and the wire
port's events (spec/10_state.md R17). -/

namespace Sys2Proof.Machine

/-! ### The image buffer as a list of cells -/

/-- What an address that is not listed reads as: the reset contents 0x00 (R11). -/
abbrev Memory.unlisted : Byte := 0x00#8

/-- The byte at an address. -/
def Memory.read : Memory → Nat → Byte
  | [], _ => Memory.unlisted
  | c :: m, a => if c.1 = a then c.2 else Memory.read m a

/-- The list with the cell `(a, v)` put before the first cell of a higher address. -/
def Memory.insert (a : Nat) (v : Byte) : Memory → Memory
  | [] => [(a, v)]
  | c :: m => if a < c.1 then (a, v) :: c :: m else c :: Memory.insert a v m

/-- Writing a byte. Writing what an unlisted address reads as removes the entry. -/
def Memory.write (m : Memory) (a : Nat) (v : Byte) : Memory :=
  let others := m.filter (fun c => c.1 ≠ a)
  if v = Memory.unlisted then others else Memory.insert a v others

/-- The canonical form: addresses strictly rising, no entry equal to what an unlisted address reads as. -/
abbrev Memory.wf (m : Memory) : Prop :=
  m.Pairwise (fun c d => c.1 < d.1) ∧ ∀ c ∈ m, c.2 ≠ Memory.unlisted

/-! ### Accesses to `IMG` -/

/-- `MemRead(a, 1)`: byte `a` of `IMG` (R35). Byte addresses are `0` to `BUFLEN - 1` and nothing else (R37). -/
def memRead (a : Nat) (s : State) : Except Fault Byte :=
  if a < s.layout.bufLen then .ok (s.img.read a) else .error (.imageAddress a)

/-- `MemWrite(a, 1, v)` (R35). -/
def memWrite (a : Nat) (v : Byte) (s : State) : Except Fault State :=
  if a < s.layout.bufLen then .ok { s with img := s.img.write a v } else .error (.imageAddress a)

/-- `ImgMerge(a, m, v)`: the masked byte merge, clear then OR (R34). A merge with an all-zero mask makes no access and
its address is not checked (D10). -/
def imgMerge (a : Nat) (m v : Byte) (s : State) : Except Fault State :=
  if m = 0x00#8 then .ok s
  else do
    let old ← memRead a s
    memWrite a ((old &&& ~~~m) ||| v) s

/-- `GetBit(p)`: image bit `p` of `IMG`, bit 0 the most significant bit of byte 0 (R31). -/
def getBit (p : Nat) (s : State) : Bool :=
  (s.img.read (p / 8)).getLsbD (7 - p % 8)

/-! ### Responses, fault entry, reset -/

/-- The command ends and returns response `r` (spec/30_encoding.md R62). -/
def respond (r : Response) (s : State) : State :=
  { s with responses := s.responses ++ [r] }

/-- `raise Fault(c)` (R139): `ERR <- 1`, `CAUSE <- c`, the command ends, the response is `c`. Nothing is saved and
control goes nowhere. -/
def raiseFault (c : FaultCause) (s : State) : State :=
  respond (.fault c) { s with status := Status.halt c }

/-- The answer to any command while `ERR = 1`: `E_HALTED`, no other effect (R136). -/
def respondHalted (s : State) : State :=
  respond .halted s

/-- The only way out of a fault: a reset by the host (R141, spec/70_reset_and_hazards.md R150, R151). Everything is
discarded but the host's own pending actions. A configuration of more than `NMAX` kinds is refused (R75; log 8). -/
def applyReset (cfg : Configuration) (s : State) : Host.Outcome State Fault Refusal :=
  if cfg.kinds.length ≤ Config.nmax then .next { State.resetWith cfg with port := s.port }
  else .refused (.tooManyKinds cfg.kinds.length)

/-! ### The wire port -/

/-- `emit`: events are appended to `WIRE` (R17). -/
def emit (es : List WireEvent) (s : State) : State :=
  { s with wire := s.wire ++ es }

/-- `emit LATCH_HIGH ; LATCH <- 1` (spec/43_serializer.md R119). -/
def raiseLatch (s : State) : State :=
  { emit [.latchHigh] s with latch := true }

/-- `emit LATCH_LOW ; LATCH <- 0` (R119). -/
def lowerLatch (s : State) : State :=
  { emit [.latchLow] s with latch := false }

/-! ### Ending a command -/

/-- A command that passed its checks: `OK` where its accesses went through, else the model's own stop. -/
def complete : Except Fault State → Host.Outcome State Fault Refusal
  | .ok s => .next (respond .ok s)
  | .error f => .fault f

end Sys2Proof.Machine
end

