-- ==== Sys2Proof/Machine/Operands.lean ====
section
/-! DEFINITION. The operand forms shared by `WRF` and `SET`: the mask table `LEAD`, the bits of a source pattern and the masked source
byte (spec/41_field_writer.md R84, R85, spec/20_memory.md R32). Operands come from the command word or from the layout, never from a
register (spec/10_state.md R18). -/

namespace Sys2Proof.Machine

/-- `LEAD[k]`: the mask of the `k` leading bit positions of a byte, `k` from 0 to 8 (R84). -/
def lead : Nat → Byte
  | 0 => 0x00#8
  | 1 => 0x80#8
  | 2 => 0xC0#8
  | 3 => 0xE0#8
  | 4 => 0xF0#8
  | 5 => 0xF8#8
  | 6 => 0xFC#8
  | 7 => 0xFE#8
  | _ => 0xFF#8

/-- `SrcBit(q)`: pattern bit `q` of a source pattern, the most significant bit of `src[0]` first (R32). Used for
`q` below `8 * SRC_BYTES` only, where the byte exists. -/
def srcBit (src : SourcePattern) (q : Nat) : Bool :=
  (src[q / 8]?.getD 0#8).getLsbD (7 - q % 8)

/-- `V`: the masked source byte of one iteration, `src[i] & LEAD[k]`; with `k = 0` it is 0x00 and `src[i]` is not read
(R85, R87). -/
def maskedSource (src : SourcePattern) (i k : Nat) : Except Fault Byte :=
  if k = 0 then .ok 0x00#8
  else
    match src[i]? with
    | some b => .ok (b &&& lead k)
    | none => .error (.sourceIndex i)

end Sys2Proof.Machine
end

