-- ==== Sys2Proof/Machine/FieldWriter.lean ====
section
/-! DEFINITION. The Field Writer, `FieldWrite(off, width, src)`, and the `WRF` command (spec/41_field_writer.md R80 to R97). -/

namespace Sys2Proof.Machine

/-- The Field Writer's working registers that live from one iteration to the next (spec/10_state.md R15); `remaining`,
`k` and `M` are the functions below and `V` is `maskedSource`. They are no part of State. -/
structure FieldWriterRegs where
  byteIndex : Nat
  bitShift  : Nat
  span      : Nat
  i         : Nat
  copied    : Nat
deriving DecidableEq, Repr

/-- The iteration count (R83): `ceil(width / 8)` for an aligned field, else `floor(width / 8) + 1`. -/
def spanOf (bitShift width : Nat) : Nat :=
  if bitShift = 0 then (width + 7) / 8 else width / 8 + 1

/-- The set-up (R82, R83). -/
def fieldWriterSetup (off width : Nat) : FieldWriterRegs where
  byteIndex := off / 8
  bitShift := off % 8
  span := spanOf (off % 8) width
  i := 0
  copied := 0

/-- `remaining`: the bits of the field not yet copied (R85, step 1). -/
def remainingBits (width : Nat) (r : FieldWriterRegs) : Nat :=
  width - r.copied

/-- `k`: the bits kept of this iteration's source byte (R85, step 2). -/
def keptBits (width : Nat) (r : FieldWriterRegs) : Nat :=
  min 8 (remainingBits width r)

/-- `M` (R85, step 2). -/
def iterationMask (width : Nat) (r : FieldWriterRegs) : Byte :=
  lead (keptBits width r)

/-- Step 5 of R85: next source byte, next destination byte, 8 more bits copied, capped at `width`. -/
def FieldWriterRegs.advance (width : Nat) (r : FieldWriterRegs) : FieldWriterRegs :=
  { r with i := r.i + 1, copied := min width (r.copied + 8) }

/-- The spill of step 4 (R85): the bits that fell off the right edge land in the next destination byte. With
`bit_shift = 0` there is none. Left shifts are truncated to 8 bits (R86). -/
def spillMerge (r : FieldWriterRegs) (m v : Byte) (s : State) : Except Fault State :=
  if r.bitShift = 0 then .ok s
  else imgMerge (r.byteIndex + r.i + 1) (m <<< (8 - r.bitShift)) (v <<< (8 - r.bitShift)) s

/-- One iteration, steps 1 to 4 of R85. -/
def fieldWriteIteration (width : Nat) (src : SourcePattern) (r : FieldWriterRegs) (s : State) : Except Fault State := do
  let m := iterationMask width r
  let v ← maskedSource src r.i (keptBits width r)
  let s₁ ← imgMerge (r.byteIndex + r.i) (m >>> r.bitShift) (v >>> r.bitShift) s
  spillMerge r m v s₁

/-- The loop of R85: all the iterations asked for, no early exit (R88). -/
def fieldWriteLoop (width : Nat) (src : SourcePattern) : Nat → FieldWriterRegs → State → Except Fault State
  | 0, _, s => .ok s
  | n + 1, r, s => do
    let s₁ ← fieldWriteIteration width src r s
    fieldWriteLoop width src n (r.advance width) s₁

/-- `FieldWrite(off, width, src)` (R85). -/
def fieldWrite (off width : Nat) (src : SourcePattern) (s : State) : Except Fault State :=
  fieldWriteLoop width src (spanOf (off % 8) width) (fieldWriterSetup off width) s

/-- `WRF` (R80, R81): the checks in the spec's order, then the Field Writer, then `OK`. -/
def execWrf (width off : Nat) (src : SourcePattern) (s : State) : Host.Outcome State Fault Refusal :=
  if s.status.err then .next (respondHalted s)
  else if width = 0 ∨ width > Config.maxWidth then .next (raiseFault .width s)
  else if off + width > 8 * s.layout.bufLen then .next (raiseFault .bounds s)
  else complete (fieldWrite off width src s)

end Sys2Proof.Machine
end

