-- ==== Sys2Proof/Machine/Serializer.lean ====
section
/-! DEFINITION. The Image Serializer and the `UPD` command (spec/43_serializer.md R115 to R126). -/

namespace Sys2Proof.Machine

/-- The eight `SHIFT` events of one byte, value bit 0 first (R117). -/
def byteEvents (b : Byte) : List WireEvent :=
  (List.range 8).map (fun j => .shift (b.getLsbD j))

/-- The loop of R119 over the bytes below `b`, the highest address first (R116). -/
def serializeBytes : Nat → State → Except Fault State
  | 0, s => .ok s
  | b + 1, s => do
    let B ← memRead b s
    serializeBytes b (emit (byteEvents B) s)

/-- `flush` (R119): the bytes, then one latch pulse (R118). The hold between the two latch events is time, which the
model does not carry (spec/00_scope.md R8). -/
def flush (s : State) : Except Fault State := do
  let s₁ ← serializeBytes s.layout.bufLen s
  .ok (lowerLatch (raiseLatch s₁))

/-- `UPD` (R115, R119). -/
def execUpd (s : State) : Host.Outcome State Fault Refusal :=
  if s.status.err then .next (respondHalted s)
  else complete (flush s)

end Sys2Proof.Machine
end

