-- ==== Sys2Proof/Machine/SetEncoder.lean ====
section
/-! DEFINITION. The component value encoder `Encode(kind, val)` and the `SET` command (spec/42_set_encoder.md R100 to R112). -/

namespace Sys2Proof.Machine

/-- The character code of `'0'` (ASCII: spec/93_implementation_defined.md G1; log 13). -/
def charZero : Byte := 0x30#8

/-- The character code of `'8'` (ASCII; log 13). -/
def charEight : Byte := 0x38#8

/-- `SEG7` (spec/00_scope.md R6, R103) of an instance constructed with the open parameters `p`: the one entry the source gives; a known character's entry; all segments off for an
unknown character. Everything but the first case is open (log 5). -/
def seg7 (p : ParameterSet) (c : Byte) : Byte :=
  if c = charEight then 0xFE#8
  else if Config.seg7Known p c then Config.seg7Table p c
  else 0x00#8

/-- `SEG16` (spec/00_scope.md R6, R105) of an instance constructed with the open parameters `p`: a known character's entry; for an unknown one all-zero, or the single segment of the
optional fallback. All of it is open (log 5). -/
def seg16 (p : ParameterSet) (c : Byte) : BitVec 16 :=
  if Config.seg16Known p c then Config.seg16Table p c
  else
    match Config.seg16Fallback p c with
    | none => 0#16
    | some b => BitVec.twoPow 16 b.val

/-- `Encode(kind, val)` (R102 to R107), with the tables of the open parameters `p`: a source pattern, left-justified, the bytes after the field 0. -/
def encodeValue (p : ParameterSet) : ComponentKind → Byte → SourcePattern
  | .sevenSegment, val => #v[seg7 p val, 0x00#8, 0x00#8, 0x00#8, 0x00#8]
  | .sevenSegmentInverted, val => #v[~~~(seg7 p val), 0x00#8, 0x00#8, 0x00#8, 0x00#8]
  | .alpha16, val => #v[(seg16 p val).extractLsb' 8 8, (seg16 p val).extractLsb' 0 8, 0x00#8, 0x00#8, 0x00#8]
  | .led, val => #v[if val = charZero then 0x00#8 else 0x80#8, 0x00#8, 0x00#8, 0x00#8, 0x00#8]
  | .matrix5x7, _ => #v[0xFF#8, 0xFF#8, 0xFF#8, 0xFF#8, 0xE0#8]

/-- `SET` (R101, R108): the index check, then the encoded value written at the component's offset. -/
def execSet (idx : Nat) (val : Byte) (s : State) : Host.Outcome State Fault Refusal :=
  if s.status.err then .next (respondHalted s)
  else if idx ≥ s.layout.n then .next (raiseFault .index s)
  else
    match s.layout.kind[idx]?, s.layout.offs[idx]? with
    | some kind, some off => complete (fieldWrite off (kindWidth s.alphaWidth kind) (encodeValue s.parameters kind val) s)
    | _, _ => .fault (.layoutIndex idx)

end Sys2Proof.Machine
end

