-- ==== Sys2Proof/Machine/Dispatch.lean ====
section
/-! DEFINITION. What each command of spec/opcode_table.json does to the state. -/

namespace Sys2Proof.Machine

def exec (i : Instr) (s : State) : Host.Outcome State Fault Refusal :=
  match i with
  | .wrf width off src => Sys2Proof.Machine.execWrf width off src s
  | .set idx val => Sys2Proof.Machine.execSet idx val s
  | .upd => Sys2Proof.Machine.execUpd s

end Sys2Proof.Machine
end

