-- ==== Sys2Proof/Machine/Port.lean ====
section
/-! DEFINITION. The command port: what the engine does with the host's next action (spec/30_encoding.md R50, R63,
spec/60_exceptions.md R136, R138, spec/70_reset_and_hazards.md R150, R162). -/

namespace Sys2Proof.Machine

/-- One command word is taken: a halted engine answers `E_HALTED` without decoding it (R136), an illegal word raises
`E_ILLEGAL` (R135), any other runs (R138 gives the order). -/
def runCommand (cw : Word) (s : State) : Host.Outcome State Fault Refusal :=
  if s.status.err then .next (respondHalted s)
  else
    match decode cw with
    | .ok i => exec i s
    | .error _ => .next (raiseFault .illegal s)

/-- The next host action is taken off the port and carried out; with none the engine is idle and nothing changes
(R149; log 7). -/
def takeAction (s : State) : Host.Outcome State Fault Refusal :=
  match s.port with
  | [] => .next s
  | .command cw :: rest => runCommand cw { s with port := rest }
  | .reset cfg :: rest => applyReset cfg { s with port := rest }

/-- The host issues one more command word, to be taken before the actions already pending. -/
def issueFirst (cw : Word) (s : State) : State :=
  { s with port := .command cw :: s.port }

end Sys2Proof.Machine
end

