-- ==== Sys2Proof/Machine/Step.lean ====
section
/-! DEFINITION. One step of the engine: the host's next action, carried out to completion (spec/20_memory.md R38). -/

namespace Sys2Proof.Machine

/-- One step. -/
def step (s : State) : Host.Outcome State Fault Refusal :=
  takeAction s

/-- The state with the command word of an opcode-table row issued first on the port, so that the very next step runs
it. There is no program in the engine (spec/10_state.md R18): the host issues words (log 1). -/
def State.withFetchWord (s : State) (nbits w : Nat) : State :=
  issueFirst (tableWord nbits w) s

end Sys2Proof.Machine
end

