-- ==== Sys2Proof/Machine/ClosedForm.lean ====
section
/-! DEFINITION. The closed form of the Field Writer's result (spec/41_field_writer.md R89): the image with the field's bits
set one by one. The `WRF` and `SET` meanings use the loop; that the two agree is a statement for the provers. -/

namespace Sys2Proof.Machine

/-- A byte with value bit `j` set to `b`. -/
def byteWithBit (v : Byte) (j : Nat) (b : Bool) : Byte :=
  if b then v ||| BitVec.twoPow 8 j else v &&& ~~~(BitVec.twoPow 8 j)

/-- The state with image bit `p` set to `b`. -/
def setImageBit (p : Nat) (b : Bool) (s : State) : State :=
  { s with img := s.img.write (p / 8) (byteWithBit (s.img.read (p / 8)) (7 - p % 8) b) }

/-- Image bits `off` to `off + n - 1` set to pattern bits `0` to `n - 1` (R32, R89). -/
def fieldWriteBits (off : Nat) (src : SourcePattern) : Nat → State → State
  | 0, s => s
  | n + 1, s => setImageBit (off + n) (srcBit src n) (fieldWriteBits off src n s)

end Sys2Proof.Machine
end

