-- ==== Sys2Proof/Machine/Display.lean ====
section
/-! DEFINITION. Ghost state: what the external display shows, as a function of the wire trace (spec/10_state.md R23).
No step reads it. -/

namespace Sys2Proof.Machine

/-- The bits of the `SHIFT` events, in the order sent. -/
def shiftedBits : List WireEvent → List Bool
  | [] => []
  | .shift b :: es => b :: shiftedBits es
  | .latchHigh :: es => shiftedBits es
  | .latchLow :: es => shiftedBits es

/-- The events before the most recent `LATCH_HIGH`, none where there was no latch pulse yet. -/
def beforeLastLatch : List WireEvent → Option (List WireEvent)
  | [] => none
  | e :: es =>
    match beforeLastLatch es with
    | some before => some (e :: before)
    | none => if e = .latchHigh then some [] else none

/-- The displayed image of a shift-register chain of `chain` bits: the last `chain` `SHIFT` bits before the most recent
`LATCH_HIGH`, oldest first (R23, C17). None before the first latch pulse: the spec leaves the display open there
(R154, N7). The chain's length is the caller's, since the source does not give it (log 14). -/
def displayedBits (chain : Nat) (wire : List WireEvent) : Option (List Bool) :=
  (beforeLastLatch wire).map (fun before =>
    (shiftedBits before).drop ((shiftedBits before).length - chain))

end Sys2Proof.Machine
end

