-- ==== Sys2Proof/Safety.lean ====
section
/-! DEFINITION. The terms in which claims are stated: the invariant of the engine, the shape of its traces, the frames of a
command, the conditions under which a command completes, and what a good run is (spec/70_reset_and_hazards.md R161). -/

namespace Sys2Proof.Machine

/-- What holds of every engine between two commands (spec/10_state.md R11, R13, R16, R17). -/
structure EngineInv (s : State) : Prop where
  /-- The image's canonical form. -/
  imgCanonical : Memory.wf s.img
  /-- `IMG` has the bytes `0` to `BUFLEN - 1` and no other (R11). -/
  imgInRange : ∀ c ∈ s.img, c.1 < s.layout.bufLen
  /-- The layout table is the one `build` computes (R12, R13). -/
  layoutBuilt : s.layout = build s.alphaWidth s.layout.kind
  /-- `N <= NMAX` (R4 of spec/00_scope.md). -/
  kindsBounded : s.layout.kind.length ≤ Config.nmax
  /-- `CAUSE` is 0 while running and a fault's code when halted (R16, R131). -/
  causeLegal : if s.status.err then ∃ c : FaultCause, s.status.cause = c.code else s.status.cause = 0#4
  /-- `LATCH = 0` whenever the engine is idle (R17). -/
  latchLow : s.latch = false

/-- `WIRE` is a sequence of complete transmissions of `n` bits, each with its latch pulse. -/
def WireFramed (n : Nat) (w : List WireEvent) : Prop :=
  ∃ frames : List (List Bool), (∀ f ∈ frames, f.length = n) ∧
    w = frames.flatMap (fun f => f.map WireEvent.shift ++ [.latchHigh, .latchLow])

/-- The responses of a run agree with `STATUS` (R161): all `OK` while running; once halted, some `OK`s, the fault whose code
`CAUSE` holds, then `E_HALTED` for ever. -/
def ResponsesConsistent (s : State) : Prop :=
  if s.status.err then
    ∃ (k m : Nat) (c : FaultCause), s.status.cause = c.code ∧
      s.responses = List.replicate k .ok ++ .fault c :: List.replicate m .halted
  else ∀ r ∈ s.responses, r = .ok

/-- A good run so far (R161): no response other than `OK`. -/
def GoodRun (s : State) : Prop :=
  ∀ r ∈ s.responses, r = .ok

/-- Everything but `IMG`, the responses and the port is unchanged: the frame of a command that only writes the image. -/
structure OnlyImageChanged (s t : State) : Prop where
  layout     : t.layout = s.layout
  status     : t.status = s.status
  wire       : t.wire = s.wire
  latch      : t.latch = s.latch
  alphaWidth : t.alphaWidth = s.alphaWidth
  parameters : t.parameters = s.parameters
  port       : t.port = s.port

/-- The image bits of a field: `off` to `off + width - 1` (spec/20_memory.md R31). -/
abbrev InField (off width p : Nat) : Prop := off ≤ p ∧ p < off + width

/-- The checks of spec/41_field_writer.md R81 let a `WRF` through. -/
abbrev WrfAccepted (width off : Nat) (s : State) : Prop :=
  s.status.err = false ∧ 1 ≤ width ∧ width ≤ 40 ∧ off + width ≤ 8 * s.layout.bufLen

/-- Component `idx` of the layout table has kind `kind` and offset `off` (spec/10_state.md R12). -/
abbrev ComponentAt (s : State) (idx : Nat) (kind : ComponentKind) (off : Nat) : Prop :=
  s.layout.kind[idx]? = some kind ∧ s.layout.offs[idx]? = some off

/-- The state holds only command words on its port. -/
def OnlyCommands (s : State) : Prop :=
  ∀ a ∈ s.port, ∃ cw : Word, a = .command cw

end Sys2Proof.Machine
end

