-- ==== Sys2Proof/Certificates/Slice0/Obligations.lean ====
section
/-! DEFINITION. The statements for the provers, one `def Obligations.<Name> : Prop` each; OBLIGATIONS.json lists them with the
rules of spec/ they rest on. States are arbitrary unless a premise says otherwise; `EngineInv` (Safety.lean) is the invariant
that `StepKeepsInvariant` and `ResetMeetsInvariant` state. -/

open Sys2Proof Sys2Proof.Machine

/-! ### Encoding -/

/-- R63: decoding the encoded word of a command whose operands fit their fields gives the command back. -/
def Obligations.DecodeOfEncodeIsTheCommand : Prop :=
  ∀ i : Instr, i.wellFormed = true → decode (encode i) = .ok i

/-- R63: each word has one meaning: a word that decodes is the encoding of what it decodes to, whose operands fit. -/
def Obligations.EncodeOfDecodeIsTheWord : Prop :=
  ∀ (cw : Word) (i : Instr), decode cw = .ok i → i.wellFormed = true ∧ encode i = cw

/-- R57, R58: a word with an undefined opcode, or a `SET` or `UPD` word with a reserved bit set, raises `E_ILLEGAL` and
does nothing else; no `WRF` word is illegal, and one with width 0 or above 40 is a legal encoding that faults with
`E_WIDTH`. Opcode `cw[63:60]` and width `cw[59:54]` are written as quotients of the word. -/
def Obligations.IllegalWordsRaiseIllegal : Prop :=
  ∀ (s : State) (cw : Word) (rest : List HostAction), s.port = .command cw :: rest → s.status.err = false →
    ((cw.toNat / 2 ^ 60 = 0 ∨ 4 ≤ cw.toNat / 2 ^ 60 ∨ (cw.toNat / 2 ^ 60 = 2 ∧ cw.toNat % 2 ^ 44 ≠ 0)
        ∨ (cw.toNat / 2 ^ 60 = 3 ∧ cw.toNat % 2 ^ 60 ≠ 0)) →
      (∃ e, decode cw = .error e) ∧
      step s = .next { s with port := rest, status := ⟨true, 0x4#4⟩, responses := s.responses ++ [.fault .illegal] }) ∧
    (cw.toNat / 2 ^ 60 = 1 →
      (∃ w off src, decode cw = .ok (.wrf w off src)) ∧
      (cw.toNat / 2 ^ 54 % 64 = 0 ∨ 40 < cw.toNat / 2 ^ 54 % 64 →
        step s = .next { s with port := rest, status := ⟨true, 0x3#4⟩, responses := s.responses ++ [.fault .width] }))

/-- Words written out in spec/95_test_vectors.md V6 decode as listed there. -/
def Obligations.ListedWordsDecode : Prop :=
  decode 0x140003ABCD000000#64 = .ok (.wrf 16 3 #v[0xAB#8, 0xCD#8, 0x00#8, 0x00#8, 0x00#8]) ∧
  decode 0x18C006123456789F#64 = .ok (.wrf 35 6 #v[0x12#8, 0x34#8, 0x56#8, 0x78#8, 0x9F#8]) ∧
  decode 0x2013100000000000#64 = .ok (.set 1 0x31#8) ∧
  decode 0x2FFFF00000000000#64 = .ok (.set 255 0xFF#8) ∧
  decode 0x3000000000000000#64 = .ok .upd ∧
  decode 0x2013100000000800#64 = .error .reservedNotZero ∧
  decode 0x3800000000000000#64 = .error .reservedNotZero ∧
  decode 0x5000000000000000#64 = .error (.undefinedOpcode 5)

/-! ### The command port -/

/-- When the next word on the port of a running engine decodes to a command, the step takes the word off the port and is
that command's meaning. The port is the model's (log 1). -/
def Obligations.StepRunsDecodedCommand : Prop :=
  ∀ (s : State) (cw : Word) (rest : List HostAction) (i : Instr), s.port = .command cw :: rest →
    s.status.err = false → decode cw = .ok i → step s = exec i { s with port := rest }

/-- With nothing on the port the engine is idle and a step changes nothing: the model's choice (log 7). -/
def Obligations.IdleStepChangesNothing : Prop :=
  ∀ s : State, s.port = [] → step s = .next s

/-- R136: a halted engine answers `E_HALTED` to every word, legal or not, and nothing else changes; the code of
`E_HALTED` never enters `CAUSE`. -/
def Obligations.HaltedEngineAnswersHalted : Prop :=
  (∀ (s : State) (cw : Word) (rest : List HostAction), s.port = .command cw :: rest → s.status.err = true →
    step s = .next { s with port := rest, responses := s.responses ++ [.halted] }) ∧
  (∀ s t : State, s.status.cause ≠ 0xF#4 → step s = .next t → t.status.cause ≠ 0xF#4)

/-- R138: the one response of a command word is the first that applies of `E_HALTED`, `E_ILLEGAL`, `E_WIDTH`, `E_BOUNDS`
(`E_INDEX` for `SET`), `OK`. -/
def Obligations.ResponsePriority : Prop :=
  ∀ (s : State) (cw : Word) (rest : List HostAction), EngineInv s → s.port = .command cw :: rest →
    ∃ t, step s = .next t ∧ t.responses = s.responses ++
      [if s.status.err then .halted
       else
         match decode cw with
         | .error _ => .fault .illegal
         | .ok (.wrf w off _) =>
           if w = 0 ∨ 40 < w then .fault .width
           else if 8 * s.layout.bufLen < off + w then .fault .bounds
           else .ok
         | .ok (.set idx _) => if s.layout.n ≤ idx then .fault .index else .ok
         | .ok .upd => .ok]

/-- R139, R140: a command that faults sets `ERR`, records its code in `CAUSE`, answers the code, and leaves everything else
exactly as it was. -/
def Obligations.FaultsArePreciseAndRecorded : Prop :=
  ∀ (s t : State) (cw : Word) (rest : List HostAction) (c : FaultCause), s.port = .command cw :: rest →
    s.status.err = false → step s = .next t → t.responses = s.responses ++ [.fault c] →
    t = { s with
          port := rest
          status := ⟨true, match c with | .index => 0x1#4 | .bounds => 0x2#4 | .width => 0x3#4 | .illegal => 0x4#4⟩
          responses := s.responses ++ [.fault c] }

/-- R141: a halted engine stays halted with the same cause and the same image, wire and layout, unless the host resets it,
which clears `STATUS` and the image. -/
def Obligations.OnlyResetEndsHalt : Prop :=
  ∀ s t : State, s.status.err = true → step s = .next t →
    (t.status = s.status ∧ t.img = s.img ∧ t.wire = s.wire ∧ t.layout = s.layout) ∨
    (∃ cfg rest, s.port = .reset cfg :: rest ∧ t.status = ⟨false, 0#4⟩ ∧
      ∀ a, a < t.layout.bufLen → memRead a t = .ok 0x00#8)

/-! ### Reset and the layout -/

/-- R22: the value of every piece of state after a reset with any admitted configuration. -/
def Obligations.ResetValues : Prop :=
  ∀ cfg : Configuration, cfg.kinds.length ≤ 256 →
    (∀ a, a < (State.resetWith cfg).layout.bufLen → memRead a (State.resetWith cfg) = .ok 0x00#8) ∧
    (State.resetWith cfg).layout.n = cfg.kinds.length ∧
    (State.resetWith cfg).layout.kind = cfg.kinds ∧
    (∀ i, i < cfg.kinds.length → (State.resetWith cfg).layout.offs[i]?
        = some (((cfg.kinds.take i).map (kindWidth cfg.alphaWidth)).sum)) ∧
    (State.resetWith cfg).layout.offs.length = cfg.kinds.length ∧
    (State.resetWith cfg).layout.totalBits = (cfg.kinds.map (kindWidth cfg.alphaWidth)).sum ∧
    (State.resetWith cfg).layout.bufLen = ((cfg.kinds.map (kindWidth cfg.alphaWidth)).sum + 7) / 8 ∧
    (State.resetWith cfg).status = ⟨false, 0#4⟩ ∧
    (State.resetWith cfg).wire = [] ∧
    (State.resetWith cfg).latch = false

/-- A reset by the host, in any state, gives the reset state of the new configuration; the host's later actions stay on the
port, and a configuration of more than 256 kinds is refused (the model's form of R150 and R75, log 8). -/
def Obligations.HostResetAtAnyTime : Prop :=
  ∀ (s : State) (cfg : Configuration) (rest : List HostAction), s.port = .reset cfg :: rest →
    (cfg.kinds.length ≤ 256 → step s = .next { State.resetWith cfg with port := rest }) ∧
    (256 < cfg.kinds.length → step s = .refused (.tooManyKinds cfg.kinds.length))

/-- R73: what the Layout Builder's result satisfies. -/
def Obligations.LayoutSums : Prop :=
  ∀ (aw : AlphaWidth) (ks : List ComponentKind),
    (build aw ks).offs.length = ks.length ∧
    (∀ i, i < ks.length → (build aw ks).offs[i]? = some (((ks.take i).map (kindWidth aw)).sum)) ∧
    (ks ≠ [] → (build aw ks).offs[0]? = some 0) ∧
    (∀ i x y k, (build aw ks).offs[i]? = some x → (build aw ks).offs[i + 1]? = some y → ks[i]? = some k →
      y - x = kindWidth aw k ∧ x ≤ y) ∧
    (ks = [] → (build aw ks).totalBits = 0) ∧
    (∀ x k, (build aw ks).offs.getLast? = some x → ks.getLast? = some k →
      (build aw ks).totalBits = x + kindWidth aw k) ∧
    (build aw ks).bufLen = ((build aw ks).totalBits + 8 - 1) / 8 ∧
    (ks ≠ [] → 8 * (build aw ks).bufLen - 7 ≤ (build aw ks).totalBits ∧
      (build aw ks).totalBits ≤ 8 * (build aw ks).bufLen)

/-- R13: from reset onwards the offsets start at 0, rise by the widths, and the fields of two components never overlap and
lie inside the image. -/
def Obligations.ComponentFieldsDisjoint : Prop :=
  ∀ s : State, EngineInv s →
    (1 ≤ s.layout.n → s.layout.offs[0]? = some 0) ∧
    (∀ i ki oi oj, ComponentAt s i ki oi → s.layout.offs[i + 1]? = some oj → oj = oi + kindWidth s.alphaWidth ki) ∧
    (s.layout.n = 0 → s.layout.totalBits = 0) ∧
    (∀ i ki oi, i + 1 = s.layout.n → ComponentAt s i ki oi →
      s.layout.totalBits = oi + kindWidth s.alphaWidth ki) ∧
    s.layout.bufLen = (s.layout.totalBits + 7) / 8 ∧
    (∀ i j oi oj : Nat, i < j → s.layout.offs[i]? = some oi → s.layout.offs[j]? = some oj → oi < oj) ∧
    (∀ i j ki kj oi oj, i ≠ j → ComponentAt s i ki oi → ComponentAt s j kj oj →
      ∀ p, InField oi (kindWidth s.alphaWidth ki) p → ¬ InField oj (kindWidth s.alphaWidth kj) p) ∧
    (∀ i ki oi, ComponentAt s i ki oi → oi + kindWidth s.alphaWidth ki ≤ s.layout.totalBits) ∧
    s.layout.totalBits ≤ 8 * s.layout.bufLen

/-- R78: the bounds of the layout table for at most 256 components; all fit 14 bits. -/
def Obligations.LayoutBounds : Prop :=
  ∀ (aw : AlphaWidth) (ks : List ComponentKind), ks.length ≤ 256 →
    (∀ x ∈ (build aw ks).offs, x ≤ 8925 ∧ x < 2 ^ 14) ∧
    (build aw ks).totalBits ≤ 8960 ∧ (build aw ks).totalBits < 2 ^ 14 ∧
    (build aw ks).bufLen ≤ 1120

/-- R74: the empty layout, in every running engine that has it: no image, every `SET` and `WRF` faults, `UPD` sends a latch
pulse only. -/
def Obligations.EmptyLayoutCommands : Prop :=
  (∀ aw : AlphaWidth, build aw [] = ⟨[], [], 0, 0, 0⟩) ∧
  ∀ s : State, EngineInv s → s.layout.kind = [] → s.status.err = false →
    s.img = [] ∧
    (∀ idx val, exec (.set idx val) s
      = .next { s with status := ⟨true, 0x1#4⟩, responses := s.responses ++ [.fault .index] }) ∧
    (∀ w off src, (w = 0 ∨ 40 < w) → exec (.wrf w off src) s
      = .next { s with status := ⟨true, 0x3#4⟩, responses := s.responses ++ [.fault .width] }) ∧
    (∀ w off src, 1 ≤ w → w ≤ 40 → exec (.wrf w off src) s
      = .next { s with status := ⟨true, 0x2#4⟩, responses := s.responses ++ [.fault .bounds] }) ∧
    exec .upd s = .next { s with wire := s.wire ++ [.latchHigh, .latchLow], responses := s.responses ++ [.ok] }

/-! ### The image and the Field Writer -/

/-- R34: the masked merge. An all-zero mask makes no access, whatever the address; otherwise the byte's bits under the mask
take the value's, the others stay, and no other byte and no other state changes. -/
def Obligations.MaskedMergeWritesOnlyMaskedBits : Prop :=
  ∀ (a : Nat) (m v : Byte) (s : State), v &&& ~~~m = 0#8 →
    (m = 0x00#8 → imgMerge a m v s = .ok s) ∧
    (m ≠ 0x00#8 → a < s.layout.bufLen →
      ∃ t, imgMerge a m v s = .ok t ∧ OnlyImageChanged s t ∧ t.responses = s.responses ∧
        memRead a t = .ok ((s.img.read a &&& ~~~m) ||| v) ∧
        (∀ b, b ≠ a → memRead b t = memRead b s) ∧
        (∀ j, j < 8 → (t.img.read a).getLsbD j = if m.getLsbD j then v.getLsbD j else (s.img.read a).getLsbD j))

/-- R84: the mask table's entries have `k` leading set bits, and the closed form. -/
def Obligations.MaskTableLeadingBits : Prop :=
  ∀ k : Nat, k ≤ 8 → (lead k).toNat = 256 - 2 ^ (8 - k) ∧ ∀ j, j < 8 → (lead k).getLsbD j = decide (8 - k ≤ j)

/-- R81, R133, R134: the checks of `WRF` in their order, with the fault each raises; a command that passes them runs the Field
Writer to its end and answers `OK`. -/
def Obligations.WrfChecksInOrder : Prop :=
  ∀ (s : State) (w off : Nat) (src : SourcePattern),
    (s.status.err = true → exec (.wrf w off src) s = .next { s with responses := s.responses ++ [.halted] }) ∧
    (s.status.err = false → (w = 0 ∨ 40 < w) → exec (.wrf w off src) s
      = .next { s with status := ⟨true, 0x3#4⟩, responses := s.responses ++ [.fault .width] }) ∧
    (s.status.err = false → 1 ≤ w → w ≤ 40 → 8 * s.layout.bufLen < off + w → exec (.wrf w off src) s
      = .next { s with status := ⟨true, 0x2#4⟩, responses := s.responses ++ [.fault .bounds] }) ∧
    (WrfAccepted w off s → ∃ u, fieldWrite off w src s = .ok u ∧
      exec (.wrf w off src) s = .next { u with responses := s.responses ++ [.ok] })

/-- R89: an accepted `WRF` completes; image bits `off` to `off + width - 1` become the pattern's bits, every other image bit
and all other state stay, and the response is `OK`. -/
def Obligations.WrfWritesExactlyItsField : Prop :=
  ∀ (s : State) (w off : Nat) (src : SourcePattern), WrfAccepted w off s →
    ∃ t, exec (.wrf w off src) s = .next t ∧
      (∀ p, getBit p t = if InField off w p then srcBit src (p - off) else getBit p s) ∧
      OnlyImageChanged s t ∧ t.responses = s.responses ++ [.ok]

/-- R89: the loop and the closed form of the Field Writer agree, as whole states, on every canonical image. -/
def Obligations.FieldWriterLoopEqualsClosedForm : Prop :=
  ∀ (s : State) (w off : Nat) (src : SourcePattern), Memory.wf s.img → 1 ≤ w → w ≤ 40 →
    off + w ≤ 8 * s.layout.bufLen → fieldWrite off w src s = .ok (fieldWriteBits off src w s)

/-- R90: every image bit outside the field of a `WRF` stays, and every image bit if the `WRF` does not answer `OK`. -/
def Obligations.WrfPreservesBitsOutsideField : Prop :=
  ∀ (s t : State) (w off : Nat) (src : SourcePattern), exec (.wrf w off src) s = .next t →
    (∀ p, ¬ InField off w p → getBit p t = getBit p s) ∧
    (t.responses ≠ s.responses ++ [.ok] → ∀ p, getBit p t = getBit p s)

/-- R91: a `WRF` repeated leaves the same image, as data. -/
def Obligations.WrfTwiceLeavesSameImage : Prop :=
  ∀ (s t u : State) (w off : Nat) (src : SourcePattern), Memory.wf s.img →
    exec (.wrf w off src) s = .next t → exec (.wrf w off src) t = .next u → u.img = t.img

/-- R92: writing a field and then an all-zero field at the same place restores every surrounding bit and clears the field. -/
def Obligations.WrfThenZeroRestoresSurroundings : Prop :=
  ∀ (s : State) (w off : Nat) (src : SourcePattern), WrfAccepted w off s →
    ∃ t u, exec (.wrf w off src) s = .next t ∧
      exec (.wrf w off #v[0x00#8, 0x00#8, 0x00#8, 0x00#8, 0x00#8]) t = .next u ∧
      ∀ p, getBit p u = if InField off w p then false else getBit p s

/-- R96: pattern bits after the field's width have no effect at all. -/
def Obligations.WrfIgnoresSourceAfterField : Prop :=
  ∀ (s : State) (w off : Nat) (src src' : SourcePattern), (∀ q, q < w → srcBit src q = srcBit src' q) →
    exec (.wrf w off src) s = exec (.wrf w off src') s

/-- R94, the frame of `WRF`: bytes before `off div 8` and after `(off + width - 1) div 8` stay; either only the image changed
(and the response log), or only `STATUS` did. -/
def Obligations.WrfFrame : Prop :=
  ∀ (s t : State) (w off : Nat) (src : SourcePattern), exec (.wrf w off src) s = .next t →
    (∀ a, a < off / 8 ∨ (off + w - 1) / 8 < a → memRead a t = memRead a s) ∧
    (OnlyImageChanged s t ∨ t = { s with status := t.status, responses := t.responses }) ∧
    t.wire = s.wire

/-- R93: the worked example, on the 3-byte image of the kinds [Alpha16, SevenSegment] with every byte 0xFF. -/
def Obligations.WorkedFieldWrite : Prop :=
  decode 0x140003ABCD000000#64 = .ok (.wrf 16 3 #v[0xAB#8, 0xCD#8, 0x00#8, 0x00#8, 0x00#8]) ∧
  ∃ t, exec (.wrf 16 3 #v[0xAB#8, 0xCD#8, 0x00#8, 0x00#8, 0x00#8])
      { State.resetWith ⟨[.alpha16, .sevenSegment], .w16, 0⟩ with img := [(0, 0xFF#8), (1, 0xFF#8), (2, 0xFF#8)] } = .next t ∧
    t.img = [(0, 0xF5#8), (1, 0x79#8), (2, 0xBF#8)] ∧ t.responses = [.ok]

/-! ### `SET` -/

/-- R101, R132: the one check of `SET`, and what runs when it passes. -/
def Obligations.SetChecksIndex : Prop :=
  ∀ (s : State) (idx : Nat) (val : Byte),
    (s.status.err = true → exec (.set idx val) s = .next { s with responses := s.responses ++ [.halted] }) ∧
    (s.status.err = false → s.layout.n ≤ idx → exec (.set idx val) s
      = .next { s with status := ⟨true, 0x1#4⟩, responses := s.responses ++ [.fault .index] }) ∧
    (EngineInv s → s.status.err = false → idx < s.layout.n →
      ∃ kind off u, ComponentAt s idx kind off ∧
        fieldWrite off (kindWidth s.alphaWidth kind) (encodeValue s.parameters kind val) s = .ok u ∧
        exec (.set idx val) s = .next { u with responses := s.responses ++ [.ok] })

/-- R108: a `SET` of an existing component completes with `OK` for every value, writes the encoded pattern into the component's
field, whose width and end need no check, and changes nothing else. -/
def Obligations.SetWritesEncodedValue : Prop :=
  ∀ (s : State) (idx : Nat) (val : Byte) (kind : ComponentKind) (off : Nat), EngineInv s → s.status.err = false →
    idx < s.layout.n → ComponentAt s idx kind off →
    1 ≤ kindWidth s.alphaWidth kind ∧ kindWidth s.alphaWidth kind ≤ 35 ∧
    off + kindWidth s.alphaWidth kind ≤ 8 * s.layout.bufLen ∧
    ∃ t, exec (.set idx val) s = .next t ∧
      (∀ p, getBit p t = if InField off (kindWidth s.alphaWidth kind) p
        then srcBit (encodeValue s.parameters kind val) (p - off) else getBit p s) ∧
      OnlyImageChanged s t ∧ t.responses = s.responses ++ [.ok]

/-- R109, the frame of `SET`: only the image changed, and no bit or byte outside the component's field, or only `STATUS`
did. -/
def Obligations.SetFrame : Prop :=
  ∀ (s t : State) (idx : Nat) (val : Byte), exec (.set idx val) s = .next t →
    (OnlyImageChanged s t ∨ t = { s with status := t.status, responses := t.responses }) ∧
    t.wire = s.wire ∧
    (∀ kind off, ComponentAt s idx kind off →
      (∀ p, ¬ InField off (kindWidth s.alphaWidth kind) p → getBit p t = getBit p s) ∧
      (∀ a, a < off / 8 ∨ (off + kindWidth s.alphaWidth kind - 1) / 8 < a → memRead a t = memRead a s))

/-- R112: a `SET` changes no bit of another component, no pad bit, and nothing outside its own field. -/
def Obligations.SetTouchesNoOtherComponent : Prop :=
  ∀ (s t : State) (i : Nat) (val : Byte), EngineInv s → exec (.set i val) s = .next t →
    (∀ kind off, ComponentAt s i kind off → ∀ p, ¬ InField off (kindWidth s.alphaWidth kind) p →
      getBit p t = getBit p s) ∧
    (∀ j kind off, j ≠ i → ComponentAt s j kind off → ∀ p, InField off (kindWidth s.alphaWidth kind) p →
      getBit p t = getBit p s) ∧
    (∀ p, s.layout.totalBits ≤ p → getBit p t = getBit p s)

/-- Derived from R103, R104 and the notation of R9: the pattern of the 7-segment kinds, and a `SET` of one: the 8 bits of the table's byte, or their complement, and
no other image bit; the one entry the source gives, at the code of `'8'` (0x38: presumed ASCII, log 13), and the default of
an unknown character. -/
def Obligations.SetSevenSegmentWritesTableByte : Prop :=
  (∀ p, seg7 p 0x38#8 = 0xFE#8) ∧
  (∀ p val, val ≠ 0x38#8 → Config.seg7Known p val = false → seg7 p val = 0x00#8) ∧
  (∀ p val, encodeValue p .sevenSegment val = #v[seg7 p val, 0x00#8, 0x00#8, 0x00#8, 0x00#8]) ∧
  (∀ p val, encodeValue p .sevenSegmentInverted val = #v[~~~(seg7 p val), 0x00#8, 0x00#8, 0x00#8, 0x00#8]) ∧
  (∀ (s : State) (idx off : Nat) (val : Byte), EngineInv s → s.status.err = false → idx < s.layout.n →
    (ComponentAt s idx .sevenSegment off → ∃ t, exec (.set idx val) s = .next t ∧
      (∀ q, q < 8 → getBit (off + q) t = (seg7 s.parameters val).getLsbD (7 - q)) ∧
      ∀ p, ¬ InField off 8 p → getBit p t = getBit p s) ∧
    (ComponentAt s idx .sevenSegmentInverted off → ∃ t, exec (.set idx val) s = .next t ∧
      (∀ q, q < 8 → getBit (off + q) t = !(seg7 s.parameters val).getLsbD (7 - q)) ∧
      ∀ p, ¬ InField off 8 p → getBit p t = getBit p s))

/-- R105, D26: a `SET` of an alphanumeric component writes the leading `ALPHA_WIDTH` bits of the table's 16, the most
significant first; an unknown character without a fallback segment is all-zero. -/
def Obligations.SetAlphaWritesLeadingBits : Prop :=
  (∀ p val, Config.seg16Known p val = false → Config.seg16Fallback p val = none → seg16 p val = 0#16) ∧
  ∀ (s : State) (idx off : Nat) (val : Byte), EngineInv s → s.status.err = false → idx < s.layout.n →
    ComponentAt s idx .alpha16 off → ∃ t, exec (.set idx val) s = .next t ∧
      (∀ q, q < (match s.alphaWidth with | .w16 => 16 | .w14 => 14) →
        getBit (off + q) t = (seg16 s.parameters val).getLsbD (15 - q)) ∧
      (∀ p, ¬ InField off (match s.alphaWidth with | .w16 => 16 | .w14 => 14) p → getBit p t = getBit p s)

/-- R106: `'0'`, code 0x30 (presumed ASCII, log 13), switches an LED off, every other value on; the pattern's single bit is
left-justified. -/
def Obligations.SetLedIsOffOnlyForZero : Prop :=
  (∀ p, encodeValue p .led 0x30#8 = #v[0x00#8, 0x00#8, 0x00#8, 0x00#8, 0x00#8]) ∧
  (∀ p val, val ≠ 0x30#8 → encodeValue p .led val = #v[0x80#8, 0x00#8, 0x00#8, 0x00#8, 0x00#8]) ∧
  ∀ (s : State) (idx off : Nat) (val : Byte), EngineInv s → s.status.err = false → idx < s.layout.n →
    ComponentAt s idx .led off → ∃ t, exec (.set idx val) s = .next t ∧
      getBit off t = decide (val ≠ 0x30#8) ∧ ∀ p, p ≠ off → getBit p t = getBit p s

/-- R107: a matrix always gets 35 ones, whatever the value. -/
def Obligations.SetMatrixLightsAllDots : Prop :=
  (∀ p val, encodeValue p .matrix5x7 val = #v[0xFF#8, 0xFF#8, 0xFF#8, 0xFF#8, 0xE0#8]) ∧
  ∀ (s : State) (idx off : Nat) (val : Byte), EngineInv s → s.status.err = false → idx < s.layout.n →
    ComponentAt s idx .matrix5x7 off → ∃ t, exec (.set idx val) s = .next t ∧
      (∀ q, q < 35 → getBit (off + q) t = true) ∧ ∀ p, ¬ InField off 35 p → getBit p t = getBit p s

/-! ### `UPD` -/

/-- R120: an `UPD` of a running engine completes: the `t`-th bit sent is image bit `8 * BUFLEN - 1 - t`, then one latch pulse;
nothing else changes. -/
def Obligations.UpdSendsImageBackwards : Prop :=
  ∀ s : State, s.status.err = false →
    exec .upd s = .next { s with
      wire := s.wire ++ (List.range (8 * s.layout.bufLen)).map (fun t => .shift (getBit (8 * s.layout.bufLen - 1 - t) s))
        ++ [.latchHigh, .latchLow]
      latch := false
      responses := s.responses ++ [.ok] }

/-- R116, R117, R118: bytes from the last to the first, each least-significant bit first, then exactly one latch pulse:
`8 * BUFLEN + 2` events. -/
def Obligations.UpdByteAndBitOrder : Prop :=
  ∀ s : State, s.status.err = false →
    ∃ t burst, exec .upd s = .next t ∧ t.wire = s.wire ++ burst ∧ burst.length = 8 * s.layout.bufLen + 2 ∧
      (∀ r j, r < s.layout.bufLen → j < 8 →
        burst[8 * r + j]? = some (.shift ((s.img.read (s.layout.bufLen - 1 - r)).getLsbD j))) ∧
      burst[8 * s.layout.bufLen]? = some .latchHigh ∧ burst[8 * s.layout.bufLen + 1]? = some .latchLow

/-- R122, the frame of `UPD`: it never stops, changes `WIRE` and (transiently) `LATCH` only, and answers `E_HALTED` or
`OK`. -/
def Obligations.UpdFrame : Prop :=
  ∀ s : State, ∃ t, exec .upd s = .next t ∧ (∀ a, memRead a t = memRead a s) ∧ t.img = s.img ∧
    t.layout = s.layout ∧ t.status = s.status ∧ t.alphaWidth = s.alphaWidth ∧ t.parameters = s.parameters ∧ t.port = s.port ∧
    (s.latch = false → t.latch = false) ∧
    t.responses = s.responses ++ [if s.status.err then .halted else .ok]

/-- R123: no other command emits wire events, and two `UPD`s with no write between them send the same `8 * BUFLEN` bits twice,
each with its own latch pulse. -/
def Obligations.OnlyUpdEmitsWireEvents : Prop :=
  (∀ (i : Instr) (s t : State), i ≠ .upd → exec i s = .next t → t.wire = s.wire) ∧
  (∀ s : State, s.status.err = false → ∃ (t u : State) (bits : List Bool), exec .upd s = .next t ∧
    exec .upd t = .next u ∧ bits.length = 8 * s.layout.bufLen ∧
    t.wire = s.wire ++ (bits.map WireEvent.shift ++ [.latchHigh, .latchLow]) ∧
    u.wire = t.wire ++ (bits.map WireEvent.shift ++ [.latchHigh, .latchLow]))

/-- R154: an `UPD` straight after reset sends `8 * BUFLEN` zero bits and one latch pulse, for every configuration. -/
def Obligations.FirstUpdateSendsZeros : Prop :=
  ∀ cfg : Configuration, ∃ t, exec .upd (State.resetWith cfg) = .next t ∧
    t.wire = List.replicate (8 * (State.resetWith cfg).layout.bufLen) (.shift false) ++ [.latchHigh, .latchLow]

/-- R126: the worked example of the source's scenario D, on the layout of scenario A with the image FE 80 00. -/
def Obligations.WorkedUpdate : Prop :=
  decode 0x3000000000000000#64 = .ok .upd ∧
  ∃ t, exec .upd { State.resetWith ⟨[.sevenSegment, .led, .sevenSegment], .w16, 0⟩ with img := [(0, 0xFE#8), (1, 0x80#8)] }
      = .next t ∧
    t.wire = [false, false, false, false, false, false, false, false,
        false, false, false, false, false, false, false, true,
        false, true, true, true, true, true, true, true].map WireEvent.shift ++ [.latchHigh, .latchLow]

/-- R23: after an `UPD` a chain as long as the image shows that image, last bit first; no other command changes what a chain of
any length shows. -/
def Obligations.DisplayShowsLatchedImage : Prop :=
  (∀ s t : State, s.status.err = false → exec .upd s = .next t →
    displayedBits (8 * s.layout.bufLen) t.wire
      = some ((List.range (8 * s.layout.bufLen)).map (fun q => getBit (8 * s.layout.bufLen - 1 - q) s))) ∧
  (∀ (i : Instr) (s t : State) (chain : Nat), i ≠ .upd → exec i s = .next t →
    displayedBits chain t.wire = displayedBits chain s.wire)

/-! ### The whole machine -/

/-- The invariant holds after a reset with every admitted configuration, the model's own `State.reset` among them. -/
def Obligations.ResetMeetsInvariant : Prop :=
  (∀ cfg : Configuration, cfg.kinds.length ≤ 256 → EngineInv (State.resetWith cfg)) ∧ EngineInv State.reset

/-- Every step keeps the invariant: the image's canonical form and range, the built layout, the legal `CAUSE`, the low
latch. -/
def Obligations.StepKeepsInvariant : Prop :=
  ∀ s t : State, EngineInv s → step s = .next t → EngineInv t

/-- R34, R108: from a state that meets the invariant no step faults in the model's own sense: the asserts hold; and the one thing
refused is a reset with more than 256 kinds. -/
def Obligations.InvariantStatesNeverStop : Prop :=
  ∀ s : State, EngineInv s → (∀ f, step s ≠ .fault f) ∧
    (∀ r, step s = .refused r →
      ∃ cfg rest, s.port = .reset cfg :: rest ∧ 256 < cfg.kinds.length ∧ r = .tooManyKinds cfg.kinds.length)

/-- R17, R119, R161: every step keeps the wire a sequence of whole transmissions of `8 * BUFLEN` bits with their latch pulses, and
the responses a run of `OK`, then at most one fault (the one in `CAUSE`), then `E_HALTED` only. -/
def Obligations.StepKeepsTracesConsistent : Prop :=
  ∀ s t : State, WireFramed (8 * s.layout.bufLen) s.wire → ResponsesConsistent s → step s = .next t →
    WireFramed (8 * t.layout.bufLen) t.wire ∧ ResponsesConsistent t

/-- Both trace properties hold after a reset with any configuration. -/
def Obligations.ResetTracesConsistent : Prop :=
  ∀ cfg : Configuration,
    WireFramed (8 * (State.resetWith cfg).layout.bufLen) (State.resetWith cfg).wire ∧
    ResponsesConsistent (State.resetWith cfg)

/-- R161: a list of command words issued to an engine that meets the invariant, and whose responses so far agree with its `STATUS`
(`ResponsesConsistent`, which holds after reset and which every step keeps), is carried out to its end, one response a word,
and the run is good exactly if the engine is not halted at its end. -/
def Obligations.RunAnswersEveryWord : Prop :=
  ∀ s : State, EngineInv s → ResponsesConsistent s → OnlyCommands s →
    ∃ t : State, Host.Core.run Sys2Proof.core s.port.length s = .next t ∧ t.port = [] ∧ EngineInv t ∧
      t.responses.length = s.responses.length + s.port.length ∧ (GoodRun t ↔ t.status.err = false)

/-- R19: the image reaches the host through the wire only: with another image a command answers the same response and does the
same to everything but the image and, for `UPD`, the wire. -/
def Obligations.ImageIsPrivate : Prop :=
  ∀ (i : Instr) (s t : State) (m : Memory), exec i s = .next t →
    ∃ m' w', exec i { s with img := m } = .next { t with img := m', wire := w' } ∧ (i ≠ .upd → w' = t.wire)

/-- R12: no command writes the layout table or the instance's configuration. -/
def Obligations.CommandsKeepLayout : Prop :=
  ∀ (i : Instr) (s t : State), exec i s = .next t → t.layout = s.layout ∧ t.alphaWidth = s.alphaWidth ∧
    t.parameters = s.parameters ∧ t.port = s.port

/-- R17: a step other than a reset only appends to the wire trace, and leaves a low latch low. -/
def Obligations.WireOnlyGrows : Prop :=
  ∀ s t : State, step s = .next t → (∀ cfg rest, s.port ≠ .reset cfg :: rest) →
    (∃ es, t.wire = s.wire ++ es) ∧ (s.latch = false → t.latch = false)

/-- R21: the pad bits are at most 7, 0 after reset, in no component's field, and change only by a raw `WRF` whose field covers
them. -/
def Obligations.PadBitsChangeOnlyByRawWrite : Prop :=
  (∀ (cfg : Configuration) (p : Nat), (State.resetWith cfg).layout.totalBits ≤ p → getBit p (State.resetWith cfg) = false) ∧
  (∀ s : State, EngineInv s →
    s.layout.totalBits ≤ 8 * s.layout.bufLen ∧ 8 * s.layout.bufLen - s.layout.totalBits ≤ 7 ∧
    (∀ i kind off p, ComponentAt s i kind off → InField off (kindWidth s.alphaWidth kind) p →
      p < s.layout.totalBits) ∧
    ∀ (i : Instr) (t : State) (p : Nat), exec i s = .next t → s.layout.totalBits ≤ p →
      getBit p t ≠ getBit p s → ∃ w off src, i = .wrf w off src ∧ InField off w p)

/-- R150, R153: a reset brings the tables chosen with its configuration, whatever the engine had before: the first command after
it, a `SET`, writes the pattern that those tables give. -/
def Obligations.ResetChoosesTables : Prop :=
  ∀ (s : State) (cfg : Configuration) (cw : Word) (rest : List HostAction) (idx : Nat) (val : Byte) (kind : ComponentKind),
    s.port = .reset cfg :: .command cw :: rest → cfg.kinds.length ≤ 256 → cfg.kinds[idx]? = some kind →
    decode cw = .ok (.set idx val) →
    ∃ t u, step s = .next t ∧ step t = .next u ∧ u.responses = [.ok] ∧ u.port = rest ∧
      t.parameters = cfg.parameters ∧ u.parameters = cfg.parameters ∧
      ∀ p, getBit p u = if InField ((cfg.kinds.take idx).map (kindWidth cfg.alphaWidth)).sum (kindWidth cfg.alphaWidth kind) p
        then srcBit (encodeValue cfg.parameters kind val) (p - ((cfg.kinds.take idx).map (kindWidth cfg.alphaWidth)).sum)
        else false
end

