-- ==== Sys2Proof/Laws/Decode.lean ====
section
/-! SUPPORT. The fields of a command word as quotients and remainders of its number, and the numbers of encoded words: decoder
and encoder proofs are then linear arithmetic over named numbers. -/

namespace Sys2Proof

theorem bitField_eq (cw : Word) (hi lo : Nat) : bitField cw hi lo = cw.toNat / 2 ^ lo % 2 ^ (hi + 1 - lo) := by
  simp only [bitField, BitVec.extractLsb'_toNat, Nat.shiftRight_eq_div_pow]

theorem byteField_toNat (cw : Word) (lo : Nat) : (byteField cw lo).toNat = cw.toNat / 2 ^ lo % 256 := by
  simp only [byteField, BitVec.extractLsb'_toNat, Nat.shiftRight_eq_div_pow]

theorem sourceNumber_lt (src : SourcePattern) : sourceNumber src < 2 ^ 40 := by
  unfold sourceNumber
  have := src[0].isLt; have := src[1].isLt; have := src[2].isLt; have := src[3].isLt; have := src[4].isLt
  omega

/-- The number of an encoded `WRF` word: no field overflows into another (R63). -/
theorem encode_wrf_toNat {width off : Nat} {src : SourcePattern} (h : (Instr.wrf width off src).wellFormed = true) :
    (encode (.wrf width off src)).toNat = 1 * 2 ^ 60 + width * 2 ^ 54 + off * 2 ^ 40 + sourceNumber src := by
  simp only [Instr.wellFormed, Config.widthBits, Config.offBits, Bool.and_eq_true, decide_eq_true_eq] at h
  have hs := sourceNumber_lt src
  simp only [encode, BitVec.toNat_ofNat]
  exact Nat.mod_eq_of_lt (by omega)

/-- The number of an encoded `SET` word (R63). -/
theorem encode_set_toNat {idx : Nat} {val : Byte} (h : (Instr.set idx val).wellFormed = true) :
    (encode (.set idx val)).toNat = 2 * 2 ^ 60 + idx * 2 ^ 52 + val.toNat * 2 ^ 44 := by
  simp only [Instr.wellFormed, Config.idxBits, decide_eq_true_eq] at h
  have hv := val.isLt
  simp only [encode, BitVec.toNat_ofNat]
  exact Nat.mod_eq_of_lt (by omega)

end Sys2Proof
end

