-- ==== Sys2Proof/Laws/Memory.lean ====
section
/-! SUPPORT. The laws of the image's cell list: read after write, and the canonical form, which every write keeps and which makes
equal contents equal lists. The first two hold of every list, canonical or not. -/

namespace Sys2Proof.Machine.Memory

@[simp] theorem read_nil (a : Nat) : Memory.read [] a = 0#8 := rfl

theorem read_eq_unlisted {m : Memory} {a : Nat} (h : ∀ c ∈ m, c.1 ≠ a) : m.read a = unlisted := by
  induction m with
  | nil => rfl
  | cons c m ih =>
    rw [Memory.read, if_neg (h c (by simp)), ih (fun d hd => h d (by simp [hd]))]

theorem read_insert_same (a : Nat) (v : Byte) (m : Memory) (h : ∀ c ∈ m, c.1 ≠ a) : (insert a v m).read a = v := by
  induction m with
  | nil => simp [insert, Memory.read]
  | cons c m ih =>
    rw [insert]
    split
    · simp [Memory.read]
    · rw [Memory.read, if_neg (h c (by simp)), ih (fun d hd => h d (by simp [hd]))]

theorem read_insert_other {a b : Nat} (v : Byte) (m : Memory) (h : b ≠ a) : (insert a v m).read b = m.read b := by
  induction m with
  | nil => simp [insert, Memory.read, Ne.symm h]
  | cons c m ih =>
    rw [insert]
    split
    · simp [Memory.read, Ne.symm h]
    · simp [Memory.read, ih]

theorem read_filter_other {a b : Nat} (m : Memory) (h : b ≠ a) :
    Memory.read (m.filter (fun c => c.1 ≠ a)) b = m.read b := by
  induction m with
  | nil => rfl
  | cons c m ih =>
    rw [List.filter_cons]
    split
    · simp only [Memory.read, ih]
    · rename_i hc
      have hca : c.1 = a := by simpa using hc
      rw [ih, Memory.read, if_neg (by omega)]

theorem filter_ne {a : Nat} {m : Memory} : ∀ c ∈ m.filter (fun c => c.1 ≠ a), c.1 ≠ a := by
  intro c hc
  simpa using (List.mem_filter.mp hc).2

/-- A byte just written reads back. -/
@[simp] theorem read_write_same (m : Memory) (a : Nat) (v : Byte) : (m.write a v).read a = v := by
  rw [write]
  split
  · rename_i h; rw [read_eq_unlisted filter_ne, h]
  · exact read_insert_same a v _ filter_ne

/-- A write leaves every other address alone. -/
theorem read_write_other {a b : Nat} (m : Memory) (v : Byte) (h : b ≠ a) : (m.write a v).read b = m.read b := by
  rw [write]
  split
  · exact read_filter_other m h
  · rw [read_insert_other v _ h, read_filter_other m h]

theorem mem_insert {a : Nat} {v : Byte} {m : Memory} {c : Host.Cell} :
    c ∈ insert a v m ↔ c = (a, v) ∨ c ∈ m := by
  induction m with
  | nil => simp [insert]
  | cons d m ih =>
    rw [insert]
    split
    · simp
    · simp only [List.mem_cons, ih]; tauto

theorem pairwise_insert {a : Nat} {v : Byte} {m : Memory} (hm : m.Pairwise (fun c d => c.1 < d.1))
    (ha : ∀ c ∈ m, c.1 ≠ a) : (insert a v m).Pairwise (fun c d => c.1 < d.1) := by
  induction m with
  | nil => simp [insert]
  | cons d m ih =>
    have hd := List.pairwise_cons.mp hm
    rw [insert]
    split
    · rename_i hlt
      refine List.pairwise_cons.mpr ⟨fun c hc => ?_, hm⟩
      rcases List.mem_cons.mp hc with rfl | hc
      · exact hlt
      · exact Nat.lt_trans hlt (hd.1 c hc)
    · rename_i hlt
      refine List.pairwise_cons.mpr ⟨fun c hc => ?_, ih hd.2 (fun c hc => ha c (by simp [hc]))⟩
      rcases mem_insert.mp hc with rfl | hc
      · have := ha d (by simp)
        simp only at hlt ⊢; omega
      · exact hd.1 c hc

/-- Every write keeps the canonical form. -/
theorem wf_write {m : Memory} (a : Nat) (v : Byte) (h : m.wf) : (m.write a v).wf := by
  have hp : (m.filter (fun c => c.1 ≠ a)).Pairwise (fun c d => c.1 < d.1) := h.1.filter _
  have hz : ∀ c ∈ m.filter (fun c => c.1 ≠ a), c.2 ≠ unlisted := fun c hc => h.2 c (List.mem_of_mem_filter hc)
  rw [write]
  split
  · exact ⟨hp, hz⟩
  · rename_i hv
    refine ⟨pairwise_insert hp filter_ne, fun c hc => ?_⟩
    rcases mem_insert.mp hc with rfl | hc
    · exact hv
    · exact hz c hc

/-- A write lists no address but its own and those listed before. -/
theorem mem_write {m : Memory} {a : Nat} {v : Byte} {c : Host.Cell} (h : c ∈ m.write a v) : c.1 = a ∨ c ∈ m := by
  rw [write] at h
  split at h
  · exact .inr (List.mem_of_mem_filter h)
  · rcases mem_insert.mp h with rfl | h
    · exact .inl rfl
    · exact .inr (List.mem_of_mem_filter h)

theorem wf_nil : wf [] := ⟨List.Pairwise.nil, by simp⟩

theorem read_of_mem {m : Memory} (h : m.Pairwise (fun c d => c.1 < d.1)) {c : Host.Cell} (hc : c ∈ m) :
    m.read c.1 = c.2 := by
  induction m with
  | nil => simp at hc
  | cons d m ih =>
    have hd := List.pairwise_cons.mp h
    rcases List.mem_cons.mp hc with rfl | hc
    · simp [Memory.read]
    · have := hd.1 c hc
      rw [Memory.read, if_neg (by omega), ih hd.2 hc]

theorem mem_iff_read {m : Memory} (h : m.wf) (c : Host.Cell) : c ∈ m ↔ c.2 ≠ unlisted ∧ m.read c.1 = c.2 := by
  refine ⟨fun hc => ⟨h.2 c hc, read_of_mem h.1 hc⟩, fun ⟨hz, hr⟩ => ?_⟩
  by_contra hc
  have : ∀ d ∈ m, d.1 ≠ c.1 := by
    intro d hd heq
    have h1 := read_of_mem h.1 hd
    rw [heq, hr] at h1
    exact hc (by rwa [show c = d from Prod.ext heq.symm h1])
  exact hz (by rw [← hr]; exact read_eq_unlisted this)

/-- Canonical memories with equal contents are equal lists. -/
theorem ext_read {m m' : Memory} (h : m.wf) (h' : m'.wf) (hr : ∀ a, m.read a = m'.read a) : m = m' := by
  have hmem : ∀ c, c ∈ m ↔ c ∈ m' := fun c => by rw [mem_iff_read h, mem_iff_read h', hr]
  have nodup : ∀ {l : Memory}, l.Pairwise (fun c d => c.1 < d.1) → l.Nodup := fun hl =>
    hl.imp (fun {c d} hcd heq => by rw [heq] at hcd; exact lt_irrefl _ hcd)
  have hperm : m.Perm m' := (List.perm_ext_iff_of_nodup (nodup h.1) (nodup h'.1)).mpr hmem
  exact hperm.eq_of_pairwise (le := fun c d => c.1 < d.1) (fun c d _ _ hcd hdc => absurd hcd (by omega)) h.1 h'.1

end Sys2Proof.Machine.Memory
end

