-- ==== Sys2Proof/Laws/State.lean ====
section
/-! SUPPORT. One lemma per field and per update of the state, each true by rfl, so that no proof unfolds a record update. -/

namespace Sys2Proof.Machine

@[simp] theorem respond_img (r : Response) (s : State) : (respond r s).img = s.img := rfl
@[simp] theorem respond_layout (r : Response) (s : State) : (respond r s).layout = s.layout := rfl
@[simp] theorem respond_status (r : Response) (s : State) : (respond r s).status = s.status := rfl
@[simp] theorem respond_wire (r : Response) (s : State) : (respond r s).wire = s.wire := rfl
@[simp] theorem respond_latch (r : Response) (s : State) : (respond r s).latch = s.latch := rfl
@[simp] theorem respond_alphaWidth (r : Response) (s : State) : (respond r s).alphaWidth = s.alphaWidth := rfl
@[simp] theorem respond_parameters (r : Response) (s : State) : (respond r s).parameters = s.parameters := rfl
@[simp] theorem respond_port (r : Response) (s : State) : (respond r s).port = s.port := rfl
@[simp] theorem respond_responses (r : Response) (s : State) : (respond r s).responses = s.responses ++ [r] := rfl

@[simp] theorem respondHalted_img (s : State) : (respondHalted s).img = s.img := rfl
@[simp] theorem respondHalted_layout (s : State) : (respondHalted s).layout = s.layout := rfl
@[simp] theorem respondHalted_status (s : State) : (respondHalted s).status = s.status := rfl
@[simp] theorem respondHalted_wire (s : State) : (respondHalted s).wire = s.wire := rfl
@[simp] theorem respondHalted_latch (s : State) : (respondHalted s).latch = s.latch := rfl
@[simp] theorem respondHalted_alphaWidth (s : State) : (respondHalted s).alphaWidth = s.alphaWidth := rfl
@[simp] theorem respondHalted_parameters (s : State) : (respondHalted s).parameters = s.parameters := rfl
@[simp] theorem respondHalted_port (s : State) : (respondHalted s).port = s.port := rfl
@[simp] theorem respondHalted_responses (s : State) : (respondHalted s).responses = s.responses ++ [.halted] := rfl

@[simp] theorem raiseFault_img (c : FaultCause) (s : State) : (raiseFault c s).img = s.img := rfl
@[simp] theorem raiseFault_layout (c : FaultCause) (s : State) : (raiseFault c s).layout = s.layout := rfl
@[simp] theorem raiseFault_status (c : FaultCause) (s : State) : (raiseFault c s).status = ⟨true, c.code⟩ := rfl
@[simp] theorem raiseFault_wire (c : FaultCause) (s : State) : (raiseFault c s).wire = s.wire := rfl
@[simp] theorem raiseFault_latch (c : FaultCause) (s : State) : (raiseFault c s).latch = s.latch := rfl
@[simp] theorem raiseFault_alphaWidth (c : FaultCause) (s : State) : (raiseFault c s).alphaWidth = s.alphaWidth := rfl
@[simp] theorem raiseFault_parameters (c : FaultCause) (s : State) : (raiseFault c s).parameters = s.parameters := rfl
@[simp] theorem raiseFault_port (c : FaultCause) (s : State) : (raiseFault c s).port = s.port := rfl
@[simp] theorem raiseFault_responses (c : FaultCause) (s : State) : (raiseFault c s).responses = s.responses ++ [.fault c] := rfl

@[simp] theorem emit_img (es : List WireEvent) (s : State) : (emit es s).img = s.img := rfl
@[simp] theorem emit_layout (es : List WireEvent) (s : State) : (emit es s).layout = s.layout := rfl
@[simp] theorem emit_status (es : List WireEvent) (s : State) : (emit es s).status = s.status := rfl
@[simp] theorem emit_wire (es : List WireEvent) (s : State) : (emit es s).wire = s.wire ++ es := rfl
@[simp] theorem emit_latch (es : List WireEvent) (s : State) : (emit es s).latch = s.latch := rfl
@[simp] theorem emit_alphaWidth (es : List WireEvent) (s : State) : (emit es s).alphaWidth = s.alphaWidth := rfl
@[simp] theorem emit_parameters (es : List WireEvent) (s : State) : (emit es s).parameters = s.parameters := rfl
@[simp] theorem emit_port (es : List WireEvent) (s : State) : (emit es s).port = s.port := rfl
@[simp] theorem emit_responses (es : List WireEvent) (s : State) : (emit es s).responses = s.responses := rfl

@[simp] theorem raiseLatch_img (s : State) : (raiseLatch s).img = s.img := rfl
@[simp] theorem raiseLatch_layout (s : State) : (raiseLatch s).layout = s.layout := rfl
@[simp] theorem raiseLatch_status (s : State) : (raiseLatch s).status = s.status := rfl
@[simp] theorem raiseLatch_wire (s : State) : (raiseLatch s).wire = s.wire ++ [.latchHigh] := rfl
@[simp] theorem raiseLatch_latch (s : State) : (raiseLatch s).latch = true := rfl
@[simp] theorem raiseLatch_alphaWidth (s : State) : (raiseLatch s).alphaWidth = s.alphaWidth := rfl
@[simp] theorem raiseLatch_parameters (s : State) : (raiseLatch s).parameters = s.parameters := rfl
@[simp] theorem raiseLatch_port (s : State) : (raiseLatch s).port = s.port := rfl
@[simp] theorem raiseLatch_responses (s : State) : (raiseLatch s).responses = s.responses := rfl

@[simp] theorem lowerLatch_img (s : State) : (lowerLatch s).img = s.img := rfl
@[simp] theorem lowerLatch_layout (s : State) : (lowerLatch s).layout = s.layout := rfl
@[simp] theorem lowerLatch_status (s : State) : (lowerLatch s).status = s.status := rfl
@[simp] theorem lowerLatch_wire (s : State) : (lowerLatch s).wire = s.wire ++ [.latchLow] := rfl
@[simp] theorem lowerLatch_latch (s : State) : (lowerLatch s).latch = false := rfl
@[simp] theorem lowerLatch_alphaWidth (s : State) : (lowerLatch s).alphaWidth = s.alphaWidth := rfl
@[simp] theorem lowerLatch_parameters (s : State) : (lowerLatch s).parameters = s.parameters := rfl
@[simp] theorem lowerLatch_port (s : State) : (lowerLatch s).port = s.port := rfl
@[simp] theorem lowerLatch_responses (s : State) : (lowerLatch s).responses = s.responses := rfl

@[simp] theorem issueFirst_img (cw : Word) (s : State) : (issueFirst cw s).img = s.img := rfl
@[simp] theorem issueFirst_layout (cw : Word) (s : State) : (issueFirst cw s).layout = s.layout := rfl
@[simp] theorem issueFirst_status (cw : Word) (s : State) : (issueFirst cw s).status = s.status := rfl
@[simp] theorem issueFirst_wire (cw : Word) (s : State) : (issueFirst cw s).wire = s.wire := rfl
@[simp] theorem issueFirst_latch (cw : Word) (s : State) : (issueFirst cw s).latch = s.latch := rfl
@[simp] theorem issueFirst_alphaWidth (cw : Word) (s : State) : (issueFirst cw s).alphaWidth = s.alphaWidth := rfl
@[simp] theorem issueFirst_parameters (cw : Word) (s : State) : (issueFirst cw s).parameters = s.parameters := rfl
@[simp] theorem issueFirst_port (cw : Word) (s : State) : (issueFirst cw s).port = .command cw :: s.port := rfl
@[simp] theorem issueFirst_responses (cw : Word) (s : State) : (issueFirst cw s).responses = s.responses := rfl

@[simp] theorem setImageBit_img (p : Nat) (b : Bool) (s : State) : (setImageBit p b s).img = s.img.write (p / 8) (byteWithBit (s.img.read (p / 8)) (7 - p % 8) b) := rfl
@[simp] theorem setImageBit_layout (p : Nat) (b : Bool) (s : State) : (setImageBit p b s).layout = s.layout := rfl
@[simp] theorem setImageBit_status (p : Nat) (b : Bool) (s : State) : (setImageBit p b s).status = s.status := rfl
@[simp] theorem setImageBit_wire (p : Nat) (b : Bool) (s : State) : (setImageBit p b s).wire = s.wire := rfl
@[simp] theorem setImageBit_latch (p : Nat) (b : Bool) (s : State) : (setImageBit p b s).latch = s.latch := rfl
@[simp] theorem setImageBit_alphaWidth (p : Nat) (b : Bool) (s : State) : (setImageBit p b s).alphaWidth = s.alphaWidth := rfl
@[simp] theorem setImageBit_parameters (p : Nat) (b : Bool) (s : State) : (setImageBit p b s).parameters = s.parameters := rfl
@[simp] theorem setImageBit_port (p : Nat) (b : Bool) (s : State) : (setImageBit p b s).port = s.port := rfl
@[simp] theorem setImageBit_responses (p : Nat) (b : Bool) (s : State) : (setImageBit p b s).responses = s.responses := rfl

@[simp] theorem resetWith_img (cfg : Configuration) : (State.resetWith cfg).img = [] := rfl
@[simp] theorem resetWith_layout (cfg : Configuration) : (State.resetWith cfg).layout = build cfg.alphaWidth cfg.kinds := rfl
@[simp] theorem resetWith_status (cfg : Configuration) : (State.resetWith cfg).status = ⟨false, 0#4⟩ := rfl
@[simp] theorem resetWith_wire (cfg : Configuration) : (State.resetWith cfg).wire = [] := rfl
@[simp] theorem resetWith_latch (cfg : Configuration) : (State.resetWith cfg).latch = false := rfl
@[simp] theorem resetWith_alphaWidth (cfg : Configuration) : (State.resetWith cfg).alphaWidth = cfg.alphaWidth := rfl
@[simp] theorem resetWith_parameters (cfg : Configuration) : (State.resetWith cfg).parameters = cfg.parameters := rfl
@[simp] theorem resetWith_port (cfg : Configuration) : (State.resetWith cfg).port = [] := rfl
@[simp] theorem resetWith_responses (cfg : Configuration) : (State.resetWith cfg).responses = [] := rfl

@[simp] theorem build_kind (aw : AlphaWidth) (ks : List ComponentKind) : (build aw ks).kind = ks := rfl
@[simp] theorem build_n (aw : AlphaWidth) (ks : List ComponentKind) : (build aw ks).n = ks.length := rfl

@[simp] theorem getBit_respond (p : Nat) (r : Response) (s : State) : getBit p (respond r s) = getBit p s := rfl
@[simp] theorem getBit_raiseFault (p : Nat) (c : FaultCause) (s : State) : getBit p (raiseFault c s) = getBit p s := rfl
@[simp] theorem memRead_respond (a : Nat) (r : Response) (s : State) : memRead a (respond r s) = memRead a s := rfl
@[simp] theorem memRead_raiseFault (a : Nat) (c : FaultCause) (s : State) : memRead a (raiseFault c s) = memRead a s := rfl

end Sys2Proof.Machine
end

