-- ==== Sys2Proof/Laws/Ops.lean ====
section
/-! SUPPORT. One lemma for each shared operation over the image, saying everything it can do. -/

namespace Sys2Proof.Machine

/-- `t` is `s` with another image, whose canonical form and range are as good as those of `s`: all that an access to `IMG`
can do. -/
structure ImageStep (s t : State) : Prop where
  frame : t = { s with img := t.img }
  wf    : Memory.wf s.img → Memory.wf t.img
  range : (∀ c ∈ s.img, c.1 < s.layout.bufLen) → ∀ c ∈ t.img, c.1 < s.layout.bufLen

theorem ImageStep.refl (s : State) : ImageStep s s := ⟨rfl, id, id⟩

theorem ImageStep.layout {s t : State} (h : ImageStep s t) : t.layout = s.layout := by rw [h.frame]

theorem ImageStep.trans {s t u : State} (h : ImageStep s t) (h' : ImageStep t u) : ImageStep s u where
  frame := by rw [h'.frame, h.frame]
  wf := h'.wf ∘ h.wf
  range := fun hr => by
    have := h'.range (by rw [h.layout]; exact h.range hr)
    rwa [h.layout] at this

theorem memRead_eq_ok {a : Nat} {s : State} {v : Byte} :
    memRead a s = .ok v ↔ a < s.layout.bufLen ∧ s.img.read a = v := by
  unfold memRead; split <;> simp [*]

theorem memRead_of_lt {a : Nat} {s : State} (h : a < s.layout.bufLen) : memRead a s = .ok (s.img.read a) :=
  memRead_eq_ok.mpr ⟨h, rfl⟩

theorem memWrite_of_lt {a : Nat} {s : State} (v : Byte) (h : a < s.layout.bufLen) :
    memWrite a v s = .ok { s with img := s.img.write a v } := by
  simp [memWrite, h]

/-- R34: a merge with an all-zero mask makes no access, whatever its address. -/
@[simp] theorem imgMerge_zero (a : Nat) (v : Byte) (s : State) : imgMerge a 0#8 v s = .ok s := by
  simp [imgMerge]

/-- R34: any other merge of a byte of the image writes the one byte. -/
theorem imgMerge_of_lt {a : Nat} {m : Byte} {s : State} (v : Byte) (hm : m ≠ 0#8) (h : a < s.layout.bufLen) :
    imgMerge a m v s = .ok { s with img := s.img.write a ((s.img.read a &&& ~~~m) ||| v) } := by
  rw [imgMerge, if_neg hm, memRead_of_lt h]
  exact memWrite_of_lt _ h

/-- R34: the assert; only a merge with a non-empty mask can fail it. -/
theorem imgMerge_of_ge {a : Nat} {m : Byte} {s : State} (v : Byte) (hm : m ≠ 0#8) (h : s.layout.bufLen ≤ a) :
    imgMerge a m v s = .error (.imageAddress a) := by
  rw [imgMerge, if_neg hm, memRead, if_neg (by omega)]
  rfl

/-- A merge that answers a state changed the image only. -/
theorem imgMerge_imageStep {a : Nat} {m v : Byte} {s t : State} (h : imgMerge a m v s = .ok t) : ImageStep s t := by
  by_cases hm : m = 0#8
  · subst hm
    rw [imgMerge_zero] at h
    cases h
    exact .refl s
  · by_cases ha : a < s.layout.bufLen
    · rw [imgMerge_of_lt v hm ha] at h
      cases h
      refine ⟨rfl, Memory.wf_write a _, fun hr c hc => ?_⟩
      rcases Memory.mem_write hc with rfl | hc
      · exact ha
      · exact hr c hc
    · rw [imgMerge_of_ge v hm (by omega)] at h
      cases h

@[simp] theorem complete_ok (s : State) : complete (.ok s) = .next (respond .ok s) := rfl
@[simp] theorem complete_error (f : Fault) : complete (.error f) = .fault f := rfl

theorem complete_eq_next {r : Except Fault State} {t : State} (h : complete r = .next t) :
    ∃ s', r = .ok s' ∧ t = respond .ok s' := by
  cases r with
  | error f => cases h
  | ok s' => cases h; exact ⟨s', rfl, rfl⟩

end Sys2Proof.Machine
end

