-- ==== Sys2Proof/Laws/FieldWriter.lean ====
section
/-! SUPPORT. The Field Writer, said once: it changes the image only and keeps its canonical form and range, whatever its
arguments; what it does to each image bit; and when no access of it fails. -/

namespace Sys2Proof.Machine

theorem except_bind_eq_ok {ε α β : Type} {x : Except ε α} {f : α → Except ε β} {b : β} :
    (x >>= f) = .ok b ↔ ∃ a, x = .ok a ∧ f a = .ok b := by
  cases x with
  | error e => exact ⟨fun h => (by cases h), fun ⟨_, h, _⟩ => (by cases h)⟩
  | ok a => exact ⟨fun h => ⟨a, rfl, h⟩, fun ⟨a', h, h'⟩ => (by cases h; exact h')⟩

theorem spillMerge_imageStep {r : FieldWriterRegs} {m v : Byte} {s t : State} (h : spillMerge r m v s = .ok t) :
    ImageStep s t := by
  unfold spillMerge at h
  split at h
  · cases h; exact .refl _
  · exact imgMerge_imageStep h

theorem fieldWriteIteration_imageStep {width : Nat} {src : SourcePattern} {r : FieldWriterRegs} {s t : State}
    (h : fieldWriteIteration width src r s = .ok t) : ImageStep s t := by
  obtain ⟨v, -, h⟩ := except_bind_eq_ok.mp h
  obtain ⟨s₁, h₁, h₂⟩ := except_bind_eq_ok.mp h
  exact (imgMerge_imageStep h₁).trans (spillMerge_imageStep h₂)

theorem fieldWriteLoop_imageStep {width : Nat} {src : SourcePattern} {n : Nat} {r : FieldWriterRegs} {s t : State}
    (h : fieldWriteLoop width src n r s = .ok t) : ImageStep s t := by
  induction n generalizing r s with
  | zero => cases h; exact .refl _
  | succ n ih =>
    obtain ⟨s₁, h₁, h₂⟩ := except_bind_eq_ok.mp h
    exact (fieldWriteIteration_imageStep h₁).trans (ih h₂)

/-- A field write that answers a state changed the image only. -/
theorem fieldWrite_imageStep {off width : Nat} {src : SourcePattern} {s t : State}
    (h : fieldWrite off width src s = .ok t) : ImageStep s t :=
  fieldWriteLoop_imageStep h

/-- With no bits left to copy the source byte is not read (R87). -/
@[simp] theorem maskedSource_zero (src : SourcePattern) (i : Nat) : maskedSource src i 0 = .ok 0#8 := by
  simp [maskedSource]

theorem maskedSource_of_lt (src : SourcePattern) {i k : Nat} (hk : k ≠ 0) (hi : i < 5) :
    maskedSource src i k = .ok (src[i] &&& lead k) := by
  simp [maskedSource, hk, hi]

/-- The bits of the mask table's entries (R84). -/
theorem lead_getLsbD {k : Nat} (hk : k ≤ 8) (j : Nat) : (lead k).getLsbD j = (decide (8 - k ≤ j) && decide (j < 8)) := by
  by_cases hj : j < 8
  · interval_cases k <;> interval_cases j <;> rfl
  · rw [BitVec.getLsbD_of_ge _ _ (by omega)]; simp [hj]

/-- What a merge does to the image bits: those of byte `a` under the mask take the value's (R34). -/
theorem imgMerge_getBit {a : Nat} {m v : Byte} {s t : State} (h : imgMerge a m v s = .ok t)
    (hv : ∀ j, v.getLsbD j = true → m.getLsbD j = true) (p : Nat) :
    getBit p t = if p / 8 = a ∧ m.getLsbD (7 - p % 8) = true then v.getLsbD (7 - p % 8) else getBit p s := by
  by_cases hm : m = 0#8
  · subst hm
    rw [imgMerge_zero] at h
    cases h
    simp
  · have ha : a < s.layout.bufLen := by
      by_contra ha
      rw [imgMerge_of_ge v hm (by omega)] at h
      cases h
    rw [imgMerge_of_lt v hm ha] at h
    cases h
    by_cases hp : p / 8 = a
    · subst hp
      have hj : 7 - p % 8 < 8 := by omega
      have := hv (7 - p % 8)
      simp only [getBit, Memory.read_write_same, BitVec.getLsbD_or, BitVec.getLsbD_and, BitVec.getLsbD_not, hj]
      cases hm' : m.getLsbD (7 - p % 8) <;> cases hv' : v.getLsbD (7 - p % 8) <;> simp_all
    · simp [getBit, hp, Memory.read_write_other _ _ hp]

theorem maskedSource_getLsbD {src : SourcePattern} {i k : Nat} {v : Byte} (hk : k ≤ 8)
    (h : maskedSource src i k = .ok v) {j : Nat} (hj : j < 8) :
    v.getLsbD j = (decide (8 - k ≤ j) && srcBit src (8 * i + (7 - j))) := by
  unfold maskedSource at h
  split at h
  · cases h
    simp [show ¬ 8 ≤ j by omega, *]
  · split at h
    · rename_i b hb
      cases h
      have h1 : (8 * i + (7 - j)) / 8 = i := by omega
      have h2 : 7 - (8 * i + (7 - j)) % 8 = j := by omega
      rw [srcBit, h1, h2, hb, BitVec.getLsbD_and, lead_getLsbD hk]
      simp [hj, Bool.and_comm]
    · cases h

theorem keptBits_le (width : Nat) (r : FieldWriterRegs) : keptBits width r ≤ 8 := Nat.min_le_left _ _

/-- What one iteration does to the image bits: the next `k` bits of the field take the next `k` pattern bits (R85). -/
theorem fieldWriteIteration_getBit {width : Nat} {src : SourcePattern} {r : FieldWriterRegs} {s t : State}
    (hb : r.bitShift < 8) (h : fieldWriteIteration width src r s = .ok t) (p : Nat) :
    (InField (8 * (r.byteIndex + r.i) + r.bitShift) (keptBits width r) p →
      getBit p t = srcBit src (8 * r.i + (p - (8 * (r.byteIndex + r.i) + r.bitShift)))) ∧
    (¬ InField (8 * (r.byteIndex + r.i) + r.bitShift) (keptBits width r) p → getBit p t = getBit p s) := by
  obtain ⟨v, hv, h⟩ := except_bind_eq_ok.mp h
  obtain ⟨s₁, h₁, h₂⟩ := except_bind_eq_ok.mp h
  have hk := keptBits_le width r
  have hbit := fun {j} (hj : j < 8) => maskedSource_getLsbD hk hv (j := j) hj
  have hvm : ∀ j, v.getLsbD j = true → (lead (keptBits width r)).getLsbD j = true := by
    intro j hj
    have hj8 := BitVec.lt_of_getLsbD hj
    rw [hbit hj8] at hj
    rw [lead_getLsbD hk]
    simp_all
  have e₁ := imgMerge_getBit h₁ (fun j hj => by
    rw [BitVec.getLsbD_ushiftRight] at hj ⊢; exact hvm _ hj) p
  have e₂ : getBit p t = if r.bitShift ≠ 0 ∧ p / 8 = r.byteIndex + r.i + 1 ∧
      (lead (keptBits width r) <<< (8 - r.bitShift)).getLsbD (7 - p % 8) = true
      then (v <<< (8 - r.bitShift)).getLsbD (7 - p % 8) else getBit p s₁ := by
    unfold spillMerge at h₂
    split at h₂
    · rename_i h0; cases h₂; simp [h0]
    · rename_i h0
      rw [imgMerge_getBit h₂ (fun j hj => by
        simp only [BitVec.getLsbD_shiftLeft, iterationMask, Bool.and_eq_true] at hj ⊢
        exact ⟨hj.1, hvm _ hj.2⟩) p]
      simp [h0, iterationMask]
  rw [e₂, e₁]
  simp only [iterationMask, BitVec.getLsbD_ushiftRight, BitVec.getLsbD_shiftLeft, lead_getLsbD hk,
    Bool.and_eq_true, Bool.not_eq_true', decide_eq_true_eq, decide_eq_false_iff_not]
  clear e₁ e₂ h₁ h₂ h
  generalize keptBits width r = k at *
  have hp := Nat.div_add_mod p 8
  have hp8 := Nat.mod_lt p (show 0 < 8 by omega)
  refine ⟨fun c => ?_, fun c => by rw [if_neg (by omega), if_neg (by omega)]⟩
  by_cases d : p / 8 = r.byteIndex + r.i
  · rw [if_neg (by omega), if_pos (by omega), hbit (by omega), decide_eq_true (by omega), Bool.true_and]
    congr 1; omega
  · have q₁ : 7 - p % 8 < 8 := by omega
    have q₂ : ¬ 7 - p % 8 < 8 - r.bitShift := by omega
    have q₃ : 8 - k ≤ 7 - p % 8 - (8 - r.bitShift) := by omega
    rw [if_pos (by omega), hbit (by omega)]
    simp only [q₁, q₂, q₃, decide_true, decide_false, Bool.not_false, Bool.true_and]
    congr 1; omega

@[simp] theorem advance_byteIndex (w : Nat) (r : FieldWriterRegs) : (r.advance w).byteIndex = r.byteIndex := rfl
@[simp] theorem advance_bitShift (w : Nat) (r : FieldWriterRegs) : (r.advance w).bitShift = r.bitShift := rfl
@[simp] theorem advance_i (w : Nat) (r : FieldWriterRegs) : (r.advance w).i = r.i + 1 := rfl
@[simp] theorem advance_copied (w : Nat) (r : FieldWriterRegs) : (r.advance w).copied = min w (r.copied + 8) := rfl

/-- What the rest of the loop does to the image bits. -/
theorem fieldWriteLoop_getBit {width : Nat} {src : SourcePattern} {n : Nat} {r : FieldWriterRegs} {s t : State}
    (hb : r.bitShift < 8) (hc : r.copied = min width (8 * r.i))
    (h : fieldWriteLoop width src n r s = .ok t) (p : Nat) :
    (8 * r.byteIndex + r.bitShift + r.copied ≤ p ∧ p < 8 * r.byteIndex + r.bitShift + min width (8 * (r.i + n)) →
      getBit p t = srcBit src (p - (8 * r.byteIndex + r.bitShift))) ∧
    (¬ (8 * r.byteIndex + r.bitShift + r.copied ≤ p ∧ p < 8 * r.byteIndex + r.bitShift + min width (8 * (r.i + n))) →
      getBit p t = getBit p s) := by
  induction n generalizing r s with
  | zero => cases h; exact ⟨fun c => by omega, fun _ => rfl⟩
  | succ n ih =>
    obtain ⟨s₁, h₁, h₂⟩ := except_bind_eq_ok.mp h
    obtain ⟨i₁, i₂⟩ := ih (r := r.advance width) hb (by simp; omega) h₂
    obtain ⟨j₁, j₂⟩ := fieldWriteIteration_getBit hb h₁ p
    simp only [advance_byteIndex, advance_bitShift, advance_i, advance_copied] at i₁ i₂
    have hkept : keptBits width r = min 8 (width - r.copied) := rfl
    refine ⟨fun c => ?_, fun c => by rw [i₂ (by omega), j₂ (by omega)]⟩
    by_cases d : 8 * r.byteIndex + r.bitShift + min width (r.copied + 8) ≤ p
    · exact i₁ (by omega)
    · rw [i₂ (by omega), j₁ (by omega)]
      congr 1; omega

/-- What a field write that answers a state does to the image bits (R89). -/
theorem fieldWrite_getBit {off width : Nat} {src : SourcePattern} {s t : State}
    (h : fieldWrite off width src s = .ok t) (p : Nat) :
    getBit p t = if InField off width p then srcBit src (p - off) else getBit p s := by
  have hb : (fieldWriterSetup off width).bitShift < 8 := Nat.mod_lt _ (by omega)
  obtain ⟨e₁, e₂⟩ := fieldWriteLoop_getBit hb (by simp [fieldWriterSetup]) h p
  have hspan : width ≤ 8 * spanOf (off % 8) width := by unfold spanOf; split <;> omega
  simp only [fieldWriterSetup] at e₁ e₂
  by_cases c : InField off width p
  · rw [if_pos c, e₁ (by omega), Nat.div_add_mod]
  · rw [if_neg c, e₂ (by omega)]

/-- A field of at most `8 * SRC_BYTES` bits inside the image is written: no access fails (R87). -/
theorem imgMerge_total {a : Nat} {m : Byte} {s : State} (v : Byte) (h : m ≠ 0#8 → a < s.layout.bufLen) :
    ∃ t, imgMerge a m v s = .ok t := by
  by_cases hm : m = 0#8
  · subst hm; exact ⟨s, by simp⟩
  · exact ⟨_, imgMerge_of_lt v hm (h hm)⟩

theorem byte_ne_zero {m : Byte} (h : m ≠ 0#8) : ∃ j, j < 8 ∧ m.getLsbD j = true := by
  by_contra hc
  refine h (BitVec.eq_of_getLsbD_eq fun j hj => ?_)
  simpa using fun h' => hc ⟨j, hj, h'⟩

theorem fieldWriteIteration_total {width : Nat} (src : SourcePattern) {r : FieldWriterRegs} {s : State}
    (hb : r.bitShift < 8) (hi : keptBits width r ≠ 0 → r.i < 5)
    (hl : keptBits width r ≠ 0 →
      8 * (r.byteIndex + r.i) + r.bitShift + keptBits width r ≤ 8 * s.layout.bufLen) :
    ∃ t, fieldWriteIteration width src r s = .ok t := by
  have hk := keptBits_le width r
  obtain ⟨v, hv⟩ : ∃ v, maskedSource src r.i (keptBits width r) = .ok v := by
    by_cases h0 : keptBits width r = 0
    · exact ⟨0#8, by rw [h0]; simp⟩
    · exact ⟨_, maskedSource_of_lt src h0 (hi h0)⟩
  obtain ⟨s₁, h₁⟩ : ∃ s₁, imgMerge (r.byteIndex + r.i) (iterationMask width r >>> r.bitShift) (v >>> r.bitShift) s = .ok s₁ := by
    refine imgMerge_total _ fun hm => ?_
    obtain ⟨j, hj, hb'⟩ := byte_ne_zero hm
    simp only [iterationMask, BitVec.getLsbD_ushiftRight, lead_getLsbD hk, Bool.and_eq_true, decide_eq_true_eq] at hb'
    have := hl (by omega)
    omega
  obtain ⟨t, h₂⟩ : ∃ t, spillMerge r (iterationMask width r) v s₁ = .ok t := by
    unfold spillMerge
    split
    · exact ⟨_, rfl⟩
    · refine imgMerge_total _ fun hm => ?_
      obtain ⟨j, hj, hb'⟩ := byte_ne_zero hm
      simp only [iterationMask, BitVec.getLsbD_shiftLeft, lead_getLsbD hk, Bool.and_eq_true, Bool.not_eq_true', decide_eq_true_eq, decide_eq_false_iff_not] at hb'
      have := hl (by omega)
      rw [(imgMerge_imageStep h₁).layout]
      omega
  exact ⟨t, except_bind_eq_ok.mpr ⟨v, hv, except_bind_eq_ok.mpr ⟨s₁, h₁, h₂⟩⟩⟩

theorem fieldWriteLoop_total {width : Nat} (src : SourcePattern) {n : Nat} {r : FieldWriterRegs} {s : State}
    (hb : r.bitShift < 8) (hc : r.copied = min width (8 * r.i)) (hw : width ≤ 40)
    (hl : 8 * r.byteIndex + r.bitShift + width ≤ 8 * s.layout.bufLen) :
    ∃ t, fieldWriteLoop width src n r s = .ok t := by
  induction n generalizing r s with
  | zero => exact ⟨s, rfl⟩
  | succ n ih =>
    have hkept : keptBits width r = min 8 (width - r.copied) := rfl
    obtain ⟨s₁, h₁⟩ := fieldWriteIteration_total (width := width) src (s := s) hb (by omega) (by omega)
    obtain ⟨t, h₂⟩ := ih (r := r.advance width) (s := s₁) hb (by simp [FieldWriterRegs.advance]; omega)
      (by rw [(fieldWriteIteration_imageStep h₁).layout]; exact hl)
    exact ⟨t, except_bind_eq_ok.mpr ⟨s₁, h₁, h₂⟩⟩

/-- A field of at most 40 bits that ends inside the image is written: no access of the loop fails (R87). -/
theorem fieldWrite_total {off width : Nat} (src : SourcePattern) {s : State} (hw : width ≤ 40)
    (hl : off + width ≤ 8 * s.layout.bufLen) : ∃ t, fieldWrite off width src s = .ok t :=
  fieldWriteLoop_total src (Nat.mod_lt _ (by omega)) (by simp [fieldWriterSetup]) hw
    (by simpa [fieldWriterSetup, Nat.div_add_mod] using hl)

end Sys2Proof.Machine
end

