-- ==== Sys2Proof/Laws/Layout.lean ====
section
/-! SUPPORT. The single pass of the Layout Builder, said once. -/

namespace Sys2Proof.Machine

@[simp] theorem buildOffsets_nil (aw : AlphaWidth) (c : Nat) : buildOffsets aw c [] = ([], c) := rfl

@[simp] theorem buildOffsets_cons (aw : AlphaWidth) (c : Nat) (k : ComponentKind) (ks : List ComponentKind) :
    buildOffsets aw c (k :: ks)
      = (c :: (buildOffsets aw (c + kindWidth aw k) ks).1, (buildOffsets aw (c + kindWidth aw k) ks).2) := rfl

@[simp] theorem buildOffsets_length (aw : AlphaWidth) (c : Nat) (ks : List ComponentKind) :
    (buildOffsets aw c ks).1.length = ks.length := by
  induction ks generalizing c with
  | nil => rfl
  | cons k ks ih => simp [ih]

/-- The offsets recorded by the pass: the counter at the start plus the widths of the kinds before (R73). -/
theorem buildOffsets_getElem (aw : AlphaWidth) (c : Nat) (ks : List ComponentKind) {i : Nat} (hi : i < ks.length) :
    (buildOffsets aw c ks).1[i]? = some (c + ((ks.take i).map (kindWidth aw)).sum) := by
  induction ks generalizing c i with
  | nil => simp at hi
  | cons k ks ih =>
    cases i with
    | zero => simp
    | succ i => simp at hi; simp [ih _ hi, Nat.add_assoc]

/-- The counter after the pass. -/
theorem buildOffsets_total (aw : AlphaWidth) (c : Nat) (ks : List ComponentKind) :
    (buildOffsets aw c ks).2 = c + (ks.map (kindWidth aw)).sum := by
  induction ks generalizing c with
  | nil => rfl
  | cons k ks ih => simp [ih, Nat.add_assoc]

/-- Every width is at least 1 and at most 35 (R5, R108). -/
theorem kindWidth_bounds (aw : AlphaWidth) (k : ComponentKind) : 1 ≤ kindWidth aw k ∧ kindWidth aw k ≤ 35 := by
  cases aw <;> cases k <;> decide

end Sys2Proof.Machine
end

