-- ==== Sys2Proof/Laws/PerInstr.lean ====
section
/-! SUPPORT. Per instruction: the encoded word of a well-formed command lies in its row of spec/opcode_table.json, that is,
the opcode and the reserved bits are the row's "match" under its "mask" (spec/30_encoding.md R52 to R54, R57). -/

namespace Sys2Proof.Laws.OpcodeRow

/-- The command's word matches its row of the opcode table. -/
def Statement (i : Instr) : Prop :=
  i.wellFormed = true → encode i &&& rowMask i = rowMatch i

theorem wrf (width off : Nat) (src : SourcePattern) : Statement (.wrf width off src) := by
  intro h
  simp only [Instr.wellFormed, Config.widthBits, Config.offBits, Bool.and_eq_true, decide_eq_true_eq] at h
  have hs := sourceNumber_lt src
  have hx : 1 * 2 ^ 60 + width * 2 ^ 54 + off * 2 ^ 40 + sourceNumber src
      = 2 ^ 60 * 1 + (width * 2 ^ 54 + off * 2 ^ 40 + sourceNumber src) := by ring
  have hlt : width * 2 ^ 54 + off * 2 ^ 40 + sourceNumber src < 2 ^ 60 := by omega
  refine BitVec.eq_of_getLsbD_eq fun j hj => ?_
  simp only [encode, rowMask, rowMatch, BitVec.getLsbD_and, BitVec.getLsbD_ofNat, hj, decide_true, Bool.true_and, hx,
    Nat.testBit_two_pow_mul_add _ hlt]
  by_cases h60 : j < 60
  · have : (0xF000000000000000).testBit j = false ∧ (0x1000000000000000).testBit j = false := by
      interval_cases j <;> decide
    simp [h60, this]
  · interval_cases j <;> simp_all <;> decide

theorem set (idx : Nat) (val : Byte) : Statement (.set idx val) := by
  intro h
  simp only [Instr.wellFormed, Config.idxBits, decide_eq_true_eq] at h
  have hv := val.isLt
  have hx : 2 * 2 ^ 60 + idx * 2 ^ 52 + val.toNat * 2 ^ 44 = 2 ^ 44 * (2 ^ 16 * 2 + (idx * 2 ^ 8 + val.toNat)) := by
    ring
  have hlt : idx * 2 ^ 8 + val.toNat < 2 ^ 16 := by omega
  refine BitVec.eq_of_getLsbD_eq fun j hj => ?_
  simp only [encode, rowMask, rowMatch, BitVec.getLsbD_and, BitVec.getLsbD_ofNat, hj, decide_true, Bool.true_and, hx,
    Nat.testBit_two_pow_mul, Nat.testBit_two_pow_mul_add _ hlt]
  by_cases h44 : j < 44
  · have : (0x2000000000000000).testBit j = false := by interval_cases j <;> decide
    simp [this, show ¬ 44 ≤ j by omega]
  · by_cases h60 : j < 60
    · have : (0xF0000FFFFFFFFFFF).testBit j = false ∧ (0x2000000000000000).testBit j = false := by
        interval_cases j <;> first | omega | decide
      simp [this]
    · interval_cases j <;> simp_all <;> decide

theorem upd : Statement .upd := by
  intro _
  decide

end Sys2Proof.Laws.OpcodeRow
end

