-- ==== Sys2Proof/Laws/Serializer.lean ====
section
/-! SUPPORT. What the serializer's loop and `flush` do, said once. -/

namespace Sys2Proof.Machine

/-- The loop over the bytes below `n` appends their events, the highest address first, and changes nothing else. -/
theorem serializeBytes_eq {n : Nat} {s : State} (h : n ≤ s.layout.bufLen) :
    serializeBytes n s
      = .ok (emit (((List.range n).reverse).flatMap (fun b => byteEvents (s.img.read b))) s) := by
  induction n generalizing s with
  | zero => simp [serializeBytes, emit]
  | succ n ih =>
    have hs : memRead n s = .ok (s.img.read n) := memRead_of_lt (by omega)
    have hn : n ≤ (emit (byteEvents (s.img.read n)) s).layout.bufLen := by simp; omega
    simp only [serializeBytes, hs]
    exact (ih hn).trans (by simp [emit, List.range_succ])

/-- `flush` always answers a state: the bytes' events, then the latch pulse. -/
theorem flush_eq (s : State) :
    flush s = .ok (lowerLatch (raiseLatch
      (emit (((List.range s.layout.bufLen).reverse).flatMap (fun b => byteEvents (s.img.read b))) s))) := by
  unfold flush
  rw [serializeBytes_eq (Nat.le_refl _)]
  rfl

@[simp] theorem byteEvents_length (b : Byte) : (byteEvents b).length = 8 := rfl

end Sys2Proof.Machine
end

