-- ==== Sys2Proof/Laws/Step.lean ====
section
/-! SUPPORT. Everything a command and a step can do, said once: a proof about all steps is a case analysis over these. -/

namespace Sys2Proof.Machine

/-- Everything `WRF` can do. -/
theorem execWrf_cases {w off : Nat} {src : SourcePattern} {s t : State} (h : execWrf w off src s = .next t) :
    (s.status.err = true ∧ t = respondHalted s) ∨
    (s.status.err = false ∧ (w = 0 ∨ w > 40) ∧ t = raiseFault .width s) ∨
    (s.status.err = false ∧ ¬(w = 0 ∨ w > 40) ∧ off + w > 8 * s.layout.bufLen ∧ t = raiseFault .bounds s) ∨
    (s.status.err = false ∧ ¬(w = 0 ∨ w > 40) ∧ off + w ≤ 8 * s.layout.bufLen ∧
      ∃ s', fieldWrite off w src s = .ok s' ∧ t = respond .ok s') := by
  unfold execWrf at h
  split at h
  · rename_i he; cases h; exact .inl ⟨he, rfl⟩
  · rename_i he
    have he' : s.status.err = false := by simpa using he
    split at h
    · rename_i hw; cases h; exact .inr (.inl ⟨he', hw, rfl⟩)
    · rename_i hw
      split at h
      · rename_i hb; cases h; exact .inr (.inr (.inl ⟨he', hw, hb, rfl⟩))
      · rename_i hb; exact .inr (.inr (.inr ⟨he', hw, by omega, complete_eq_next h⟩))

/-- Everything `SET` can do. -/
theorem execSet_cases {idx : Nat} {val : Byte} {s t : State} (h : execSet idx val s = .next t) :
    (s.status.err = true ∧ t = respondHalted s) ∨
    (s.status.err = false ∧ s.layout.n ≤ idx ∧ t = raiseFault .index s) ∨
    (s.status.err = false ∧ idx < s.layout.n ∧
      ∃ kind off s', s.layout.kind[idx]? = some kind ∧ s.layout.offs[idx]? = some off ∧
        fieldWrite off (kindWidth s.alphaWidth kind) (encodeValue s.parameters kind val) s = .ok s' ∧ t = respond .ok s') := by
  unfold execSet at h
  split at h
  · rename_i he; cases h; exact .inl ⟨he, rfl⟩
  · rename_i he
    have he' : s.status.err = false := by simpa using he
    split at h
    · rename_i hi; cases h; exact .inr (.inl ⟨he', hi, rfl⟩)
    · rename_i hi
      split at h
      · rename_i kind off hk ho
        obtain ⟨s', h₁, h₂⟩ := complete_eq_next h
        exact .inr (.inr ⟨he', by omega, kind, off, s', hk, ho, h₁, h₂⟩)
      · cases h

/-- What `UPD` does, in every state. -/
theorem execUpd_eq (s : State) :
    execUpd s = if s.status.err then .next (respondHalted s)
      else .next (respond .ok (lowerLatch (raiseLatch
        (emit (((List.range s.layout.bufLen).reverse).flatMap (fun b => byteEvents (s.img.read b))) s)))) := by
  unfold execUpd
  rw [flush_eq]
  rfl

/-- Everything a step can do. -/
theorem step_cases {s : State} {o : Host.Outcome State Fault Refusal} (h : step s = o) :
    (s.port = [] ∧ o = .next s) ∨
    (∃ cfg rest, s.port = .reset cfg :: rest ∧ o = applyReset cfg { s with port := rest }) ∨
    (∃ cw rest, s.port = .command cw :: rest ∧ s.status.err = true ∧
      o = .next (respondHalted { s with port := rest })) ∨
    (∃ cw rest e, s.port = .command cw :: rest ∧ s.status.err = false ∧ decode cw = .error e ∧
      o = .next (raiseFault .illegal { s with port := rest })) ∨
    (∃ cw rest i, s.port = .command cw :: rest ∧ s.status.err = false ∧ decode cw = .ok i ∧
      o = exec i { s with port := rest }) := by
  subst h
  unfold step takeAction
  split
  · rename_i hp; exact .inl ⟨hp, rfl⟩
  · rename_i cw rest hp
    refine .inr (.inr ?_)
    unfold runCommand
    split
    · rename_i he; exact .inl ⟨cw, rest, hp, he, rfl⟩
    · rename_i he
      have he' : s.status.err = false := by simpa using he
      split
      · rename_i i hd; exact .inr (.inr ⟨cw, rest, i, hp, he', hd, rfl⟩)
      · rename_i e hd; exact .inr (.inl ⟨cw, rest, e, hp, he', hd, rfl⟩)
  · rename_i cfg rest hp; exact .inr (.inl ⟨cfg, rest, hp, rfl⟩)

/-- A reset that is not refused. -/
theorem applyReset_eq_next {cfg : Configuration} {s t : State} (h : applyReset cfg s = .next t) :
    cfg.kinds.length ≤ 256 ∧ t = { State.resetWith cfg with port := s.port } := by
  unfold applyReset at h
  split at h
  · rename_i hk; cases h; exact ⟨hk, rfl⟩
  · cases h

/-- A reset that is refused (R75). -/
theorem applyReset_refused {cfg : Configuration} (s : State) (h : 256 < cfg.kinds.length) :
    applyReset cfg s = .refused (.tooManyKinds cfg.kinds.length) :=
  if_neg (by simpa using h)

/-- One step of a run that answers a state. -/
theorem core_run_succ (M : Host.Core) (n : Nat) (s t : M.State) (h : M.step s = .next t) :
    M.run (n + 1) s = M.run n t := by
  rw [Host.Core.run, h]

end Sys2Proof.Machine
end

