-- ==== Sys2Proof/Machine/Assembler.lean ====
section
/-! DEFINITION. The textual form of a command (spec/30_encoding.md R60, D21) and the source's own call syntax (R61). A line is a
list of characters. No step reads this file. -/

namespace Sys2Proof.Machine

/-- Why a line is no command. -/
inductive AsmError where
  | unknownMnemonic
  | operandSyntax
  /-- An operand does not fit its field. -/
  | operandRange
deriving DecidableEq, Repr

/-- The value of a digit in a base up to 16. -/
def digitValue (base : Nat) (c : Char) : Option Nat :=
  let n := c.toNat
  let v :=
    if 48 ≤ n ∧ n ≤ 57 then n - 48
    else if 65 ≤ n ∧ n ≤ 70 then n - 55
    else if 97 ≤ n ∧ n ≤ 102 then n - 87
    else base
  if v < base then some v else none

/-- The digits of a number, most significant first; none if one is no digit of the base. -/
def digitsOf (base : Nat) : List Char → Option (List Nat)
  | [] => some []
  | c :: cs =>
    match digitValue base c, digitsOf base cs with
    | some d, some ds => some (d :: ds)
    | _, _ => none

/-- A number: decimal unless prefixed `0x` (R60, which says so of `off`, `width` and `idx`). A prefix without digits is no number (DESIGN CHOICE, log 15). -/
def parseNumber (cs : List Char) : Option Nat :=
  let (base, body) : Nat × List Char :=
    match cs with
    | '0' :: 'x' :: ds => (16, ds)
    | ds => (10, ds)
  match body, digitsOf base body with
  | _ :: _, some ds => some (ds.foldl (fun acc d => acc * base + d) 0)
  | _, _ => none

/-- The bytes of an even number of hexadecimal digits; none for an odd number (log 15). -/
def pairBytes : List Nat → Option (List Byte)
  | [] => some []
  | [_] => none
  | h :: l :: ds => (pairBytes ds).map (fun bs => BitVec.ofNat 8 (16 * h + l) :: bs)

/-- A source pattern from at most five bytes, padded on the right with zero bytes (R60). -/
def padSource (bs : List Byte) : SourcePattern :=
  Vector.ofFn (fun i => bs.getD i.val 0x00#8)

/-- The source operand of `WRF`: `0x` and up to 10 hexadecimal digits, the bytes in order (R60). The spec leaves `0x` with no
digits open; refusing it is the model's choice (DESIGN CHOICE, log 15). -/
def parseSource : List Char → Option SourcePattern
  | '0' :: 'x' :: ds =>
    match (digitsOf 16 ds).bind pairBytes with
    | some bs => if 0 < bs.length ∧ bs.length ≤ Config.srcBytes then some (padSource bs) else none
    | none => none
  | _ => none

/-- The value operand of `SET`: a character literal or a number (R60). The spec gives no code of a character that is not
ASCII; that a literal stands for its Unicode code point, in range up to 0xFF, is the model's choice (DESIGN CHOICE,
log 21). The spec fixes the base of `off`, `width` and `idx` only; that a number here is decimal unless prefixed `0x` is the
model's choice too (DESIGN CHOICE, log 15). -/
def parseValue : List Char → Option Nat
  | ['\'', c, '\''] => some c.toNat
  | cs => parseNumber cs

/-- A line's text before its comment: `;` starts one (R60; log 15). -/
def stripComment (cs : List Char) : List Char :=
  cs.takeWhile (fun c => c ≠ ';')

/-- The text without leading and trailing blanks. -/
def trimBlanks (cs : List Char) : List Char :=
  ((cs.dropWhile (fun c => c = ' ' ∨ c = '\t')).reverse.dropWhile (fun c => c = ' ' ∨ c = '\t')).reverse

/-- The text cut at its commas. -/
def splitCommas : List Char → List (List Char)
  | [] => [[]]
  | c :: cs =>
    if c = ',' then [] :: splitCommas cs
    else
      match splitCommas cs with
      | [] => [[c]]
      | w :: ws => (c :: w) :: ws

/-- A command whose operands fit their fields. -/
def checkRange (i : Instr) : Except AsmError (Option Instr) :=
  if i.wellFormed then .ok (some i) else .error .operandRange

/-- A mnemonic with its operands (R60). -/
def assembleOperands (mnemonic : List Char) (operands : List (List Char)) : Except AsmError (Option Instr) :=
  if mnemonic = ['W', 'R', 'F'] then
    match operands with
    | [o, w, s] =>
      match parseNumber o, parseNumber w, parseSource s with
      | some off, some width, some src => checkRange (.wrf width off src)
      | _, _, _ => .error .operandSyntax
    | _ => .error .operandSyntax
  else if mnemonic = ['S', 'E', 'T'] then
    match operands with
    | [i, v] =>
      match parseNumber i, parseValue v with
      | some idx, some val =>
        if val < 2 ^ Config.valBits then checkRange (.set idx (BitVec.ofNat 8 val)) else .error .operandRange
      | _, _ => .error .operandSyntax
    | _ => .error .operandSyntax
  else if mnemonic = ['U', 'P', 'D'] then
    match operands with
    | [[]] => checkRange .upd
    | _ => .error .operandSyntax
  else .error .unknownMnemonic

/-- One line of text: no command for a blank or comment line (R60). -/
def assembleLine (line : List Char) : Except AsmError (Option Instr) :=
  let text := trimBlanks (stripComment line)
  let mnemonic := text.takeWhile (fun c => c ≠ ' ' ∧ c ≠ '\t')
  let operands := (splitCommas (text.drop mnemonic.length)).map trimBlanks
  if text = [] then .ok none else assembleOperands mnemonic operands

/-- The source's own calls on the instance's buffer (R61). `build(kinds)` has no command. -/
inductive SourceCall where
  | writeField (dstBitOffset width : Nat) (source : SourcePattern)
  | set (componentIndex : Nat) (value : Byte)
  | update
deriving DecidableEq, Repr

/-- The command of a source call (R61). -/
def SourceCall.toCommand : SourceCall → Instr
  | .writeField o w s => .wrf w o s
  | .set i v => .set i v
  | .update => .upd

end Sys2Proof.Machine
end

