-- ==== Sys2Proof/Tests/Slice0.lean ====
section
/-! SUPPORT. Tests: ill-formed commands refused, words of the spec decoded, single commands whose results stand in
spec/95_test_vectors.md, and for every statement with hypotheses a witness that meets them. -/

namespace Sys2Proof.Tests
open Sys2Proof Sys2Proof.Machine

/-! ### States to test on -/

/-- A running engine of the given kinds with the given image. -/
def engine (kinds : List ComponentKind) (aw : AlphaWidth) (img : Memory) : State :=
  { State.resetWith ⟨kinds, aw, 0⟩ with img := img }

/-- The layout [SevenSegment, Led, SevenSegment] with the image FE 80 00 (V5). -/
def demo : State := engine [.sevenSegment, .led, .sevenSegment] .w16 [(0, 0xFE#8), (1, 0x80#8)]

/-- `demo` halted by `E_BOUNDS` (V5, row 13). -/
def demoHalted : State := { demo with status := ⟨true, 0x2#4⟩, responses := [.fault .bounds] }

/-- Every kind once, with `ALPHA_WIDTH = 14`: offsets 0, 1, 36, 44, 58; 66 bits in 9 bytes. -/
def mixed : State := engine [.led, .matrix5x7, .sevenSegmentInverted, .alpha16, .sevenSegment] .w14 [(0, 0x7F#8)]

/-- The state with one command word on the port. -/
def issued (cw : Word) (s : State) : State := issueFirst cw s

/-- What holds of the next state, if there is one. -/
def nextIs (o : Host.Outcome State Fault Refusal) (f : State → Bool) : Bool :=
  match o with
  | .next t => f t
  | .fault _ => false
  | .refused _ => false

def noBytes : SourcePattern := #v[0x00#8, 0x00#8, 0x00#8, 0x00#8, 0x00#8]
def allBytes : SourcePattern := #v[0xFF#8, 0xFF#8, 0xFF#8, 0xFF#8, 0xFF#8]

/-! ### WellFormed: each check refuses an ill-formed command -/

theorem test_wf_width : (Instr.wrf 64 0 noBytes).wellFormed = false := by decide
theorem test_wf_off : (Instr.wrf 1 16384 noBytes).wellFormed = false := by decide
theorem test_wf_idx : (Instr.set 256 0x30#8).wellFormed = false := by decide
theorem test_wf_greatest : (Instr.wrf 63 16383 allBytes).wellFormed = true ∧ (Instr.set 255 0xFF#8).wellFormed = true ∧
    Instr.upd.wellFormed = true := by decide

/-! ### Decoding: words written field by field from R52 to R54 -/

/-- Format W: op 0001, width 16, off 3, src AB CD 00 00 00. -/
theorem test_decode_wrf :
    decode (0b0001#4 ++ 0b010000#6 ++ 0b00000000000011#14 ++ 0xAB#8 ++ 0xCD#8 ++ 0x00#8 ++ 0x00#8 ++ 0x00#8)
      = .ok (.wrf 16 3 #v[0xAB#8, 0xCD#8, 0x00#8, 0x00#8, 0x00#8]) := by decide

/-- Format S: op 0010, idx 1, val 0x31, reserved 0. -/
theorem test_decode_set : decode (0b0010#4 ++ 0b00000001#8 ++ 0b00110001#8 ++ 0#44) = .ok (.set 1 0x31#8) := by decide

/-- Format U: op 0011, reserved 0. -/
theorem test_decode_upd : decode (0b0011#4 ++ 0#60) = .ok .upd := by decide

/-- V6: all ones below the opcode of `WRF`. -/
theorem test_decode_wrf_ones : decode 0x1FFFFFFFFFFFFFFF#64 = .ok (.wrf 63 16383 allBytes) := by decide

/-- V6: reserved bits and undefined opcodes. -/
theorem test_decode_illegal : decode 0x2013100000000800#64 = .error .reservedNotZero ∧
    decode 0x3800000000000000#64 = .error .reservedNotZero ∧ decode 0x0000000000000000#64 = .error (.undefinedOpcode 0) ∧
    decode 0xFFFFFFFFFFFFFFFF#64 = .error (.undefinedOpcode 15) := by decide

/-- The words of V2, V3 and V4 encode their commands. -/
theorem test_encode : encode (.wrf 35 6 #v[0x12#8, 0x34#8, 0x56#8, 0x78#8, 0x9F#8]) = 0x18C006123456789F#64 ∧
    encode (.set 0 0x38#8) = 0x2003800000000000#64 ∧ encode .upd = 0x3000000000000000#64 := by decide

/-- Table words fetched as the first command after reset. -/
theorem test_fetch_after_reset : decodeTableWord 64 0x3000000000000000 = some .upd ∧
    nextIs (step (State.reset.withFetchWord 64 0x3000000000000000))
      (fun t => t.wire.length = 26 ∧ t.responses = [.ok] ∧ t.port = []) = true := by decide

/-- The codes of R131 and R62. -/
theorem test_response_codes : [Response.ok, .fault .index, .fault .bounds, .fault .width, .fault .illegal, .halted].map Response.code
    = [0x0#4, 0x1#4, 0x2#4, 0x3#4, 0x4#4, 0xF#4] := by decide

/-! ### Layouts (V1) and reset -/

/-- V1: [L, M, I, L]. -/
theorem test_layout_mixed : build .w16 [.led, .matrix5x7, .sevenSegmentInverted, .led]
    = ⟨[.led, .matrix5x7, .sevenSegmentInverted, .led], [0, 1, 36, 44], 4, 45, 6⟩ := by decide

/-- V1: [A, S, L, M] with `ALPHA_WIDTH = 14`, and [S, S], an exact multiple of 8. -/
theorem test_layout_w14 : (build .w14 [.alpha16, .sevenSegment, .led, .matrix5x7]).offs = [0, 14, 22, 23] ∧
    (build .w14 [.alpha16, .sevenSegment, .led, .matrix5x7]).bufLen = 8 ∧
    (build .w16 [.sevenSegment, .sevenSegment]).bufLen = 2 := by decide

/-- A reset of a halted engine (R150, R151). -/
theorem test_reset_clears_halt : nextIs (step { demoHalted with port := [.reset ⟨[.matrix5x7], .w16, 1⟩] })
    (fun t => t = State.resetWith ⟨[.matrix5x7], .w16, 1⟩ ∧ t.layout.bufLen = 5) = true := by decide

/-! ### `WRF` (V2, V5) -/

/-- V2 row 19: a 35-bit field at bit 6, six bytes touched. -/
theorem test_wrf_unaligned : nextIs (step (issued 0x18C006123456789F#64 (engine [.alpha16, .alpha16, .alpha16] .w16
      [(0, 0xFF#8), (1, 0xFF#8), (2, 0xFF#8), (3, 0xFF#8), (4, 0xFF#8), (5, 0xFF#8)])))
    (fun t => t.img = [(0, 0xFC#8), (1, 0x48#8), (2, 0xD1#8), (3, 0x59#8), (4, 0xE2#8), (5, 0x7F#8)]) = true := by decide

/-- V5 row 3 and V2 row 14: one bit past the end faults; a field that ends at the end is written. -/
theorem test_wrf_end_of_buffer : nextIs (step (issued 0x120011FF00000000#64 demo))
      (fun t => t.img = demo.img ∧ t.status = ⟨true, 0x2#4⟩ ∧ t.responses = [.fault .bounds]) = true ∧
    nextIs (step (issued 0x11C0110000000000#64 (engine [.alpha16, .sevenSegment] .w16 [(0, 0xFF#8), (1, 0xFF#8), (2, 0xFF#8)])))
      (fun t => t.img = [(0, 0xFF#8), (1, 0xFF#8), (2, 0x80#8)]) = true := by decide

/-- The iteration trace of V2 row 13: `k`, `M` and `V` of iteration 1. -/
theorem test_wrf_trace : keptBits 14 ((fieldWriterSetup 5 14).advance 14) = 6 ∧
    iterationMask 14 ((fieldWriterSetup 5 14).advance 14) = 0xFC#8 ∧
    (maskedSource #v[0xFF#8, 0xFF#8, 0x00#8, 0x00#8, 0x00#8] 1 6).toOption = some 0xFC#8 ∧
    (fieldWriterSetup 5 14).span = 2 := by decide

/-! ### `SET` (V3) -/

/-- V3 row 4: `SET 2, '8'` across a byte boundary. -/
theorem test_set_across_bytes : nextIs (step (issued 0x2023800000000000#64 demo))
    (fun t => t.img = [(0, 0xFE#8), (1, 0xFF#8)] ∧ t.responses = [.ok] ∧ t.wire = []) = true := by decide

/-- V3 row 6: the inverted kind after an LED; and V3 row 12: an LED is off only for '0'. -/
theorem test_set_inverted_and_led : nextIs (step (issued 0x2013800000000000#64 (engine [.led, .sevenSegmentInverted] .w16 [])))
      (fun t => t.img = [(1, 0x80#8)]) = true ∧
    nextIs (step (issued 0x2000000000000000#64 mixed)) (fun t => t.img = [(0, 0xFF#8)]) = true := by decide

/-- V3 row 9, with its hypothesis `SEG16('A') = 0xA5C3`: the last two bits of a 14-bit pattern are dropped. -/
theorem test_set_alpha14 (h : seg16 0 0x41#8 = 0xA5C3#16) :
    nextIs (exec (.set 0 0x41#8) (engine [.alpha16, .led] .w14 [])) (fun t => t.img = [(0, 0xA5#8), (1, 0xC0#8)]) = true := by
  have e : encodeValue 0 .alpha16 0x41#8 = #v[0xA5#8, 0xC3#8, 0x00#8, 0x00#8, 0x00#8] := by
    simp only [encodeValue, h]; rfl
  have hk : (engine [.alpha16, .led] .w14 []).layout.kind[0]? = some .alpha16 := by decide
  have ho : (engine [.alpha16, .led] .w14 []).layout.offs[0]? = some 0 := by decide
  have hp : (engine [.alpha16, .led] .w14 []).parameters = 0 := rfl
  simp only [exec, execSet, hk, ho, hp, e]
  decide

/-! ### `UPD` (V4) -/

/-- V4 row 3: 00 00 0F. -/
theorem test_upd_order : nextIs (step (issued 0x3000000000000000#64 (engine [.alpha16, .sevenSegment] .w16 [(2, 0x0F#8)])))
    (fun t => t.wire = [true, true, true, true, false, false, false, false, false, false, false, false, false, false, false,
      false, false, false, false, false, false, false, false, false].map .shift ++ [.latchHigh, .latchLow] ∧
      t.latch = false) = true := by decide

/-- V4 row 4: the empty layout. -/
theorem test_upd_empty : nextIs (step (issued 0x3000000000000000#64 (engine [] .w16 [])))
    (fun t => t.wire = [.latchHigh, .latchLow]) = true := by decide

/-- R23: a chain of 8 bits shows the last 8 bits shifted before the latch. -/
theorem test_displayed : displayedBits 2 [.shift true, .shift false, .shift true, .latchHigh, .latchLow, .shift false]
    = some [false, true] := by decide

/-! ### Assembler (R60) and the source's calls (R61) -/

/-- `WRF 3, 16, 0xABCD ; note`. -/
theorem test_asm_wrf : assembleLine ['W', 'R', 'F', ' ', '3', ',', ' ', '1', '6', ',', ' ', '0', 'x', 'A', 'B', 'C', 'D', ' ', ';', 'n']
    = .ok (some (.wrf 16 3 #v[0xAB#8, 0xCD#8, 0x00#8, 0x00#8, 0x00#8])) := by decide

/-- `SET 0, '8'`, `SET 3, 0xFF` and `UPD`; an operand out of range. -/
theorem test_asm_set_upd : assembleLine ['S', 'E', 'T', ' ', '0', ',', ' ', '\'', '8', '\''] = .ok (some (.set 0 0x38#8)) ∧
    assembleLine ['S', 'E', 'T', ' ', '3', ',', '0', 'x', 'F', 'F'] = .ok (some (.set 3 0xFF#8)) ∧
    assembleLine ['U', 'P', 'D'] = .ok (some .upd) ∧
    assembleLine ['S', 'E', 'T', ' ', '2', '5', '6', ',', '0'] = .error .operandRange := by decide

/-- Corners the spec leaves open (logs 15 and 21). -/
theorem test_asm_open_corners : parseSource ['0', 'x'] = none ∧ parseValue ['\'', 'é', '\''] = some 0xE9 := by decide

theorem test_source_call : (SourceCall.set 1 0x31#8).toCommand = .set 1 0x31#8 ∧ SourceCall.update.toCommand = .upd := by decide

/-! ### Witnesses: states and operands that meet the hypotheses of the statements -/

theorem demo_meets_inv : EngineInv demo := ⟨by decide, by decide, by decide, by decide, by simp [demo, engine], rfl⟩
theorem demoHalted_meets_inv : EngineInv demoHalted :=
  ⟨by decide, by decide, by decide, by decide, ⟨.bounds, rfl⟩, rfl⟩
theorem mixed_meets_inv : EngineInv mixed := ⟨by decide, by decide, by decide, by decide, by simp [mixed, engine], rfl⟩
theorem empty_meets_inv : EngineInv (engine [] .w16 []) :=
  ⟨by decide, by decide, by decide, by decide, by simp [engine], rfl⟩
theorem issued_meets_inv {s : State} (p : List HostAction) (h : EngineInv s) : EngineInv { s with port := p } :=
  ⟨h.imgCanonical, h.imgInRange, h.layoutBuilt, h.kindsBounded, h.causeLegal, h.latchLow⟩

theorem witness_DecodeOfEncodeIsTheCommand : (Instr.wrf 63 16383 allBytes).wellFormed = true ∧
    (Instr.wrf 0 0 noBytes).wellFormed = true ∧ (Instr.set 255 0xFF#8).wellFormed = true ∧ Instr.upd.wellFormed = true := by
  decide

theorem witness_EncodeOfDecodeIsTheWord : decode 0x1FFFFFFFFFFFFFFF#64 = .ok (.wrf 63 16383 allBytes) ∧
    decode 0x2FFFF00000000000#64 = .ok (.set 255 0xFF#8) ∧ decode 0x3000000000000000#64 = .ok .upd := by decide

/-- Boundary opcodes 0, 4, 15; the lowest and highest reserved bits of `SET` and `UPD`; `WRF` widths 0, 41, 63. -/
theorem witness_IllegalWordsRaiseIllegal : (issued 0#64 demo).port = .command 0#64 :: [] ∧
    (issued 0#64 demo).status.err = false ∧ (0x0#64).toNat / 2 ^ 60 = 0 ∧ 4 ≤ (0x4000000000000000#64).toNat / 2 ^ 60 ∧
    4 ≤ (0xF000000000000000#64).toNat / 2 ^ 60 ∧
    ((0x2000000000000001#64).toNat / 2 ^ 60 = 2 ∧ (0x2000000000000001#64).toNat % 2 ^ 44 ≠ 0) ∧
    ((0x2000080000000000#64).toNat / 2 ^ 60 = 2 ∧ (0x2000080000000000#64).toNat % 2 ^ 44 ≠ 0) ∧
    ((0x3800000000000000#64).toNat / 2 ^ 60 = 3 ∧ (0x3800000000000000#64).toNat % 2 ^ 60 ≠ 0) ∧
    ((0x1000000000000000#64).toNat / 2 ^ 60 = 1 ∧ (0x1000000000000000#64).toNat / 2 ^ 54 % 64 = 0) ∧
    ((0x1A40000000000000#64).toNat / 2 ^ 60 = 1 ∧ 40 < (0x1A40000000000000#64).toNat / 2 ^ 54 % 64) ∧
    40 < (0x1FFFFFFFFFFFFFFF#64).toNat / 2 ^ 54 % 64 := by decide

theorem witness_StepRunsDecodedCommand : (issued 0x3000000000000000#64 demo).port = .command 0x3000000000000000#64 :: [] ∧
    (issued 0x3000000000000000#64 demo).status.err = false ∧ decode 0x3000000000000000#64 = .ok .upd := by decide

theorem witness_IdleStepChangesNothing : demo.port = [] := rfl

theorem witness_HaltedEngineAnswersHalted : (issued 0#64 demoHalted).port = .command 0#64 :: [] ∧
    (issued 0#64 demoHalted).status.err = true ∧ (issued 0#64 demoHalted).status.cause ≠ 0xF#4 ∧
    ∃ t, step (issued 0#64 demoHalted) = .next t := ⟨rfl, rfl, by decide, _, rfl⟩

theorem witness_ResponsePriority : EngineInv (issued 0x1FFFFFFFFFFFFFFF#64 demo) ∧
    (issued 0x1FFFFFFFFFFFFFFF#64 demo).port = .command 0x1FFFFFFFFFFFFFFF#64 :: [] :=
  ⟨issued_meets_inv _ demo_meets_inv, rfl⟩

theorem witness_FaultsArePreciseAndRecorded : ∃ t, (issued 0x2033800000000000#64 demo).port = .command 0x2033800000000000#64 :: [] ∧
    (issued 0x2033800000000000#64 demo).status.err = false ∧ step (issued 0x2033800000000000#64 demo) = .next t ∧
    t.responses = (issued 0x2033800000000000#64 demo).responses ++ [.fault .index] := ⟨_, rfl, rfl, rfl, by decide⟩

theorem witness_OnlyResetEndsHalt : demoHalted.status.err = true ∧ (∃ t, step (issued 0#64 demoHalted) = .next t) ∧
    ∃ t, step { demoHalted with port := [.reset Config.initial] } = .next t := ⟨rfl, ⟨_, rfl⟩, ⟨_, rfl⟩⟩

theorem witness_ResetValues : Config.initial.kinds.length ≤ 256 ∧
    (List.replicate 256 ComponentKind.matrix5x7).length ≤ 256 := ⟨by decide, Nat.le_of_eq List.length_replicate⟩

theorem witness_HostResetAtAnyTime :
    ({ demoHalted with port := [.reset Config.initial] } : State).port = .reset Config.initial :: [] ∧
    (List.replicate 256 ComponentKind.led).length ≤ 256 ∧ 256 < (List.replicate 257 ComponentKind.led).length :=
  ⟨rfl, Nat.le_of_eq List.length_replicate, Nat.lt_of_lt_of_eq (by decide : 256 < 257) List.length_replicate.symm⟩

/-- The boundary of the clauses: the last but one component, and the last. -/
theorem witness_LayoutSums : (build .w16 [.sevenSegment, .led, .sevenSegment]).offs[1]? = some 8 ∧
    (build .w16 [.sevenSegment, .led, .sevenSegment]).offs[1 + 1]? = some 9 ∧
    [ComponentKind.sevenSegment, .led, .sevenSegment][1]? = some .led ∧
    (build .w16 [.sevenSegment, .led, .sevenSegment]).offs.getLast? = some 9 ∧
    [ComponentKind.sevenSegment, .led, .sevenSegment].getLast? = some .sevenSegment := by decide

theorem witness_ComponentFieldsDisjoint : EngineInv mixed ∧ 1 ≤ mixed.layout.n ∧ ComponentAt mixed 0 .led 0 ∧
    ComponentAt mixed 1 .matrix5x7 1 ∧ ComponentAt mixed 4 .sevenSegment 58 ∧ 4 + 1 = mixed.layout.n ∧
    EngineInv (engine [] .w16 []) ∧ (engine [] .w16 []).layout.n = 0 :=
  ⟨mixed_meets_inv, by decide, by decide, by decide, by decide, by decide, empty_meets_inv, rfl⟩

theorem witness_LayoutBounds : (List.replicate 256 ComponentKind.matrix5x7).length ≤ 256 :=
  Nat.le_of_eq List.length_replicate

theorem witness_EmptyLayoutCommands : EngineInv (engine [] .w16 []) ∧ (engine [] .w16 []).layout.kind = [] ∧
    (engine [] .w16 []).status.err = false := ⟨empty_meets_inv, rfl, rfl⟩

theorem witness_MaskedMergeWritesOnlyMaskedBits : (0x15#8 &&& ~~~0x1F#8 = 0#8) ∧ 0x1F#8 ≠ 0x00#8 ∧ 2 < demo.layout.bufLen ∧
    (0x00#8 &&& ~~~0x00#8 = 0#8) := by decide

theorem witness_MaskTableLeadingBits : (0 : Nat) ≤ 8 ∧ (8 : Nat) ≤ 8 ∧ (7 : Nat) < 8 := by decide

theorem witness_WrfChecksInOrder : demoHalted.status.err = true ∧ demo.status.err = false ∧
    8 * demo.layout.bufLen < 17 + 8 ∧ WrfAccepted 8 16 demo ∧ WrfAccepted 1 23 demo ∧
    (∃ t, exec (.wrf 0 0 noBytes) demo = .next t) ∧ ∃ t, exec (.wrf 41 0 noBytes) demo = .next t :=
  ⟨rfl, rfl, by decide, by decide, by decide, ⟨_, rfl⟩, ⟨_, rfl⟩⟩

theorem witness_WrfWritesExactlyItsField : WrfAccepted 1 0 mixed ∧ WrfAccepted 40 32 mixed := by decide

theorem witness_FieldWriterLoopEqualsClosedForm : Memory.wf mixed.img ∧ 1 ≤ 40 ∧ 32 + 40 ≤ 8 * mixed.layout.bufLen := by decide

theorem witness_WrfPreservesBitsOutsideField : (∃ t, exec (.wrf 16 3 allBytes) demo = .next t) ∧ ¬ InField 3 16 2 ∧
    ¬ InField 3 16 19 ∧ ∃ t, exec (.wrf 8 17 allBytes) demo = .next t ∧ t.responses ≠ demo.responses ++ [.ok] :=
  ⟨⟨_, rfl⟩, by decide, by decide, _, rfl, by decide⟩

theorem witness_WrfTwiceLeavesSameImage : ∃ t, Memory.wf demo.img ∧ exec (.wrf 16 3 allBytes) demo = .next t ∧
    ∃ u, exec (.wrf 16 3 allBytes) t = .next u := ⟨_, by decide, rfl, _, rfl⟩

theorem witness_WrfThenZeroRestoresSurroundings : WrfAccepted 16 3 demo := by decide

theorem witness_WrfIgnoresSourceAfterField :
    (∀ q, q < 1 → srcBit #v[0x80#8, 0x00#8, 0x00#8, 0x00#8, 0x00#8] q = srcBit allBytes q) ∧
    #v[0x80#8, 0x00#8, 0x00#8, 0x00#8, 0x00#8] ≠ allBytes := by decide

theorem witness_WrfFrame : ∃ t, exec (.wrf 8 0 allBytes) demo = .next t := ⟨_, rfl⟩

theorem witness_SetChecksIndex : demoHalted.status.err = true ∧ demo.status.err = false ∧ demo.layout.n ≤ 3 ∧
    EngineInv demo ∧ 2 < demo.layout.n := ⟨rfl, rfl, by decide, demo_meets_inv, by decide⟩

theorem witness_SetWritesEncodedValue : EngineInv mixed ∧ mixed.status.err = false ∧ 4 < mixed.layout.n ∧
    ComponentAt mixed 4 .sevenSegment 58 := ⟨mixed_meets_inv, rfl, by decide, by decide⟩

theorem witness_SetFrame : (∃ t, exec (.set 1 0x31#8) demo = .next t) ∧ ComponentAt demo 1 .led 8 := ⟨⟨_, rfl⟩, by decide⟩

theorem witness_SetTouchesNoOtherComponent : EngineInv demo ∧ (∃ t, exec (.set 1 0x31#8) demo = .next t) ∧
    ComponentAt demo 1 .led 8 ∧ ComponentAt demo 2 .sevenSegment 9 ∧ demo.layout.totalBits ≤ 17 :=
  ⟨demo_meets_inv, ⟨_, rfl⟩, by decide, by decide, by decide⟩

theorem witness_SetSevenSegmentWritesTableByte : EngineInv mixed ∧ mixed.status.err = false ∧ 4 < mixed.layout.n ∧
    ComponentAt mixed 4 .sevenSegment 58 ∧ ComponentAt mixed 2 .sevenSegmentInverted 36 ∧ (0x41#8 : Byte) ≠ 0x38#8 ∧
    ¬ InField 58 8 66 ∧ ¬ InField 36 8 44 :=
  ⟨mixed_meets_inv, rfl, by decide, by decide, by decide, by decide, by decide, by decide⟩

theorem witness_SetAlphaWritesLeadingBits : EngineInv mixed ∧ mixed.status.err = false ∧ 3 < mixed.layout.n ∧
    ComponentAt mixed 3 .alpha16 44 := ⟨mixed_meets_inv, rfl, by decide, by decide⟩

theorem witness_SetLedIsOffOnlyForZero : EngineInv demo ∧ demo.status.err = false ∧ 1 < demo.layout.n ∧
    ComponentAt demo 1 .led 8 ∧ (0x31#8 : Byte) ≠ 0x30#8 := ⟨demo_meets_inv, rfl, by decide, by decide, by decide⟩

theorem witness_SetMatrixLightsAllDots : EngineInv mixed ∧ mixed.status.err = false ∧ 1 < mixed.layout.n ∧
    ComponentAt mixed 1 .matrix5x7 1 := ⟨mixed_meets_inv, rfl, by decide, by decide⟩

theorem witness_UpdSendsImageBackwards : demo.status.err = false := rfl
theorem witness_UpdByteAndBitOrder : demo.status.err = false ∧ 2 < demo.layout.bufLen := by decide

theorem witness_OnlyUpdEmitsWireEvents : demo.status.err = false ∧ Instr.set 1 0x30#8 ≠ .upd ∧
    (∃ t, exec (.set 1 0x30#8) demo = .next t) := ⟨rfl, by decide, _, rfl⟩

theorem witness_DisplayShowsLatchedImage : demo.status.err = false ∧ (∃ t, exec .upd demo = .next t) ∧
    Instr.set 1 0x30#8 ≠ .upd ∧ ∃ t, exec (.set 1 0x30#8) demo = .next t := ⟨rfl, ⟨_, rfl⟩, by decide, _, rfl⟩

theorem witness_ResetMeetsInvariant : (List.replicate 256 ComponentKind.matrix5x7).length ≤ 256 :=
  Nat.le_of_eq List.length_replicate

theorem witness_StepKeepsInvariant : EngineInv (issued 0x2013000000000000#64 demo) ∧
    ∃ t, step (issued 0x2013000000000000#64 demo) = .next t := ⟨issued_meets_inv _ demo_meets_inv, _, rfl⟩

/-- A configuration of one kind too many. -/
def tooLarge : Configuration := ⟨List.replicate 257 .led, .w16, 0⟩

theorem tooLarge_length : 256 < tooLarge.kinds.length :=
  Nat.lt_of_lt_of_eq (by decide : 256 < 257) List.length_replicate.symm

/-- The refused case exists: a reset with a configuration of more than 256 kinds. -/
theorem step_refuses_reset (s : State) (cfg : Configuration) (rest : List HostAction) (h : 256 < cfg.kinds.length) :
    ∃ r, step { s with port := .reset cfg :: rest } = .refused r := ⟨_, applyReset_refused _ h⟩

theorem witness_InvariantStatesNeverStop : EngineInv demo ∧ EngineInv { demo with port := [.reset tooLarge] } ∧
    ∃ r, step { demo with port := [.reset tooLarge] } = .refused r :=
  ⟨demo_meets_inv, issued_meets_inv _ demo_meets_inv, step_refuses_reset demo tooLarge [] tooLarge_length⟩

theorem witness_StepKeepsTracesConsistent :
    WireFramed (8 * (issued 0x3000000000000000#64 demo).layout.bufLen) (issued 0x3000000000000000#64 demo).wire ∧
    ResponsesConsistent (issued 0x3000000000000000#64 demo) ∧ (∃ t, step (issued 0x3000000000000000#64 demo) = .next t) ∧
    ResponsesConsistent (issued 0#64 demoHalted) ∧ ∃ t, step (issued 0#64 demoHalted) = .next t := by
  refine ⟨⟨[], by simp, rfl⟩, ?_, ⟨_, rfl⟩, ?_, ⟨_, rfl⟩⟩
  · simp [ResponsesConsistent, issued, demo, engine]
  · exact ⟨0, 0, .bounds, rfl, rfl⟩

theorem witness_RunAnswersEveryWord : EngineInv (issued 0x120011FF00000000#64 (issued 0x3000000000000000#64 demo)) ∧
    ResponsesConsistent (issued 0x120011FF00000000#64 (issued 0x3000000000000000#64 demo)) ∧
    OnlyCommands (issued 0x120011FF00000000#64 (issued 0x3000000000000000#64 demo)) := by
  refine ⟨issued_meets_inv _ (issued_meets_inv _ demo_meets_inv), ?_, ?_⟩
  · simp [ResponsesConsistent, issued, demo, engine]
  · intro a ha
    simp [issued, demo, engine] at ha
    rcases ha with rfl | rfl
    · exact ⟨_, rfl⟩
    · exact ⟨_, rfl⟩

theorem witness_ImageIsPrivate : (∃ t, exec (.wrf 16 3 allBytes) demo = .next t) ∧ Instr.wrf 16 3 allBytes ≠ .upd :=
  ⟨⟨_, rfl⟩, by decide⟩

theorem witness_CommandsKeepLayout : (∃ t, exec (.wrf 16 3 allBytes) demo = .next t) ∧ ∃ t, exec .upd demo = .next t :=
  ⟨⟨_, rfl⟩, _, rfl⟩

theorem witness_WireOnlyGrows : (∃ t, step (issued 0x3000000000000000#64 demo) = .next t) ∧
    (∀ cfg rest, (issued 0x3000000000000000#64 demo).port ≠ .reset cfg :: rest) ∧
    (issued 0x3000000000000000#64 demo).latch = false := ⟨⟨_, rfl⟩, fun _ _ => by simp [issued], rfl⟩

/-- A raw `WRF` of the last pad bit (V2 row 25). -/
theorem witness_PadBitsChangeOnlyByRawWrite : EngineInv demo ∧ demo.layout.totalBits ≤ 23 ∧ ComponentAt demo 2 .sevenSegment 9 ∧
    InField 9 8 16 ∧ ∃ t, exec (.wrf 1 23 allBytes) demo = .next t ∧ getBit 23 t ≠ getBit 23 demo :=
  ⟨demo_meets_inv, by decide, by decide, by decide, _, rfl, by decide⟩

/-- A reset with other tables, then the `SET` of an inverted 7-segment component, the last of its list. -/
theorem witness_ResetChoosesTables :
    ({ demoHalted with port := [.reset ⟨[.led, .sevenSegmentInverted], .w14, 1⟩, .command 0x2014100000000000#64] } : State).port
      = .reset ⟨[.led, .sevenSegmentInverted], .w14, 1⟩ :: .command 0x2014100000000000#64 :: [] ∧
    demoHalted.parameters ≠ 1 ∧ [ComponentKind.led, .sevenSegmentInverted].length ≤ 256 ∧
    [ComponentKind.led, .sevenSegmentInverted][1]? = some .sevenSegmentInverted ∧
    decode 0x2014100000000000#64 = .ok (.set 1 0x41#8) := ⟨rfl, by decide, by decide, by decide, by decide⟩

end Sys2Proof.Tests
end

section
/-! SUPPORT. The layout table read off the kind list: each offset is the number of bits before its component, and an engine
that meets the invariant has exactly those (spec/10_state.md R12, R13). -/

namespace Sys2Proof.Machine

/-- The bits of the components before component `i` of a kind list: the sum of R73. -/
def bitsBefore (aw : AlphaWidth) (ks : List ComponentKind) (i : Nat) : Nat :=
  ((ks.take i).map (kindWidth aw)).sum

section BitsBefore
variable {aw : AlphaWidth} {ks : List ComponentKind}

@[simp] theorem bitsBefore_zero (aw : AlphaWidth) (ks : List ComponentKind) : bitsBefore aw ks 0 = 0 := rfl

theorem bitsBefore_succ {i : Nat} {k : ComponentKind} (h : ks[i]? = some k) :
    bitsBefore aw ks (i + 1) = bitsBefore aw ks i + kindWidth aw k := by
  simp [bitsBefore, List.take_add_one, h]

theorem bitsBefore_mono {i j : Nat} (h : i ≤ j) : bitsBefore aw ks i ≤ bitsBefore aw ks j :=
  ((List.take_sublist_take_left h).map (kindWidth aw)).sum_le_sum (by simp)

/-- A component's bits end before any later component's begin, and within the whole list's. -/
theorem bitsBefore_add_le {i j : Nat} {k : ComponentKind} (h : ks[i]? = some k) (hij : i < j) :
    bitsBefore aw ks i + kindWidth aw k ≤ bitsBefore aw ks j :=
  bitsBefore_succ h ▸ bitsBefore_mono hij

end BitsBefore

section Build
variable (aw : AlphaWidth) (ks : List ComponentKind)

@[simp] theorem build_offs_length : (build aw ks).offs.length = ks.length := buildOffsets_length aw 0 ks

theorem build_offs_getElem {i : Nat} (hi : i < ks.length) : (build aw ks).offs[i]? = some (bitsBefore aw ks i) := by
  simp [build, bitsBefore, buildOffsets_getElem aw 0 ks hi]

theorem build_totalBits : (build aw ks).totalBits = bitsBefore aw ks ks.length := by
  simp [build, bitsBefore, buildOffsets_total aw 0 ks]

theorem build_bufLen : (build aw ks).bufLen = ((build aw ks).totalBits + 7) / 8 := rfl

end Build

/-- The image of a reset reads 0x00 at every address it has (R22). -/
theorem memRead_resetWith {cfg : Configuration} {a : Nat} (h : a < (State.resetWith cfg).layout.bufLen) :
    memRead a (State.resetWith cfg) = .ok 0x00#8 :=
  memRead_of_lt h

namespace EngineInv
variable {s : State}

theorem n_eq (h : EngineInv s) : s.layout.n = s.layout.kind.length := by
  rw [h.layoutBuilt]; rfl

theorem totalBits_eq (h : EngineInv s) : s.layout.totalBits = bitsBefore s.alphaWidth s.layout.kind s.layout.n := by
  rw [h.n_eq, ← build_totalBits, ← h.layoutBuilt]

theorem bufLen_eq (h : EngineInv s) : s.layout.bufLen = (s.layout.totalBits + 7) / 8 := by
  rw [h.layoutBuilt, build_bufLen]

theorem offs_eq_some_iff (h : EngineInv s) {i o : Nat} :
    s.layout.offs[i]? = some o ↔ i < s.layout.n ∧ bitsBefore s.alphaWidth s.layout.kind i = o := by
  have hoffs : s.layout.offs = (build s.alphaWidth s.layout.kind).offs := congrArg Layout.offs h.layoutBuilt
  rw [hoffs, h.n_eq]
  by_cases hi : i < s.layout.kind.length
  · rw [build_offs_getElem _ _ hi]; simp [hi]
  · simp [hi]

/-- Fields follow one another without overlap: a component ends at or before the offset of any later one (R13). -/
theorem componentAt_end_le_offs (h : EngineInv s) {i j o o' : Nat} {k : ComponentKind} (hc : ComponentAt s i k o)
    (hij : i < j) (ho' : s.layout.offs[j]? = some o') : o + kindWidth s.alphaWidth k ≤ o' := by
  obtain ⟨hk, ho⟩ := hc
  obtain ⟨-, rfl⟩ := h.offs_eq_some_iff.mp ho
  obtain ⟨-, rfl⟩ := h.offs_eq_some_iff.mp ho'
  exact bitsBefore_add_le hk hij

theorem componentAt_end_le_totalBits (h : EngineInv s) {i o : Nat} {k : ComponentKind} (hc : ComponentAt s i k o) :
    o + kindWidth s.alphaWidth k ≤ s.layout.totalBits := by
  obtain ⟨hk, ho⟩ := hc
  obtain ⟨hi, rfl⟩ := h.offs_eq_some_iff.mp ho
  rw [h.totalBits_eq]
  exact bitsBefore_add_le hk hi

/-- A component ends where a component after it would begin (R13). -/
theorem componentAt_end_eq (h : EngineInv s) {i o : Nat} {k : ComponentKind} (hc : ComponentAt s i k o) :
    o + kindWidth s.alphaWidth k = bitsBefore s.alphaWidth s.layout.kind (i + 1) := by
  obtain ⟨hk, ho⟩ := hc
  obtain ⟨-, rfl⟩ := h.offs_eq_some_iff.mp ho
  exact (bitsBefore_succ hk).symm

/-- The offsets rise strictly, since every width is at least 1 (R13). -/
theorem offs_lt_offs (h : EngineInv s) {i j o o' : Nat} (hij : i < j) (ho : s.layout.offs[i]? = some o)
    (ho' : s.layout.offs[j]? = some o') : o < o' := by
  obtain ⟨hi, -⟩ := h.offs_eq_some_iff.mp ho
  obtain ⟨k, hk⟩ : ∃ k, s.layout.kind[i]? = some k := ⟨_, List.getElem?_eq_getElem (h.n_eq ▸ hi)⟩
  have hend := h.componentAt_end_le_offs ⟨hk, ho⟩ hij ho'
  have hwidth := (kindWidth_bounds s.alphaWidth k).1
  omega

/-- No image bit lies in the fields of two different components (R13). -/
theorem fields_disjoint (h : EngineInv s) {i j oi oj p : Nat} {ki kj : ComponentKind} (hij : i ≠ j)
    (hi : ComponentAt s i ki oi) (hj : ComponentAt s j kj oj) (hp : InField oi (kindWidth s.alphaWidth ki) p) :
    ¬ InField oj (kindWidth s.alphaWidth kj) p := by
  rcases Nat.lt_or_gt_of_ne hij with hlt | hgt
  · have hbefore := h.componentAt_end_le_offs hi hlt hj.2
    exact fun hq => by omega
  · have hafter := h.componentAt_end_le_offs hj hgt hi.2
    exact fun hq => by omega

end EngineInv

/-- Settles O11: every row of R22 is what `build` computes for the configured kinds, or a cleared field. -/
theorem resetValues : Obligations.ResetValues := by
  unfold Obligations.ResetValues
  intro cfg _
  have htotal : (build cfg.alphaWidth cfg.kinds).totalBits = (cfg.kinds.map (kindWidth cfg.alphaWidth)).sum := by
    simp [build_totalBits, bitsBefore]
  refine ⟨fun _ => memRead_resetWith, rfl, rfl, fun i hi => build_offs_getElem _ _ hi, ?_, ?_, ?_, rfl, rfl, rfl⟩
  · exact build_offs_length _ _
  · exact htotal
  · rw [resetWith_layout, build_bufLen, htotal]

/-- Settles O14: offsets are partial sums of the widths, each at least 1, so fields lie one after another. -/
theorem componentFieldsDisjoint : Obligations.ComponentFieldsDisjoint := by
  unfold Obligations.ComponentFieldsDisjoint
  intro s h
  refine ⟨fun hn => h.offs_eq_some_iff.mpr ⟨hn, rfl⟩, ?_, ?_, ?_, h.bufLen_eq,
    fun _ _ _ _ => h.offs_lt_offs, fun _ _ _ _ _ _ hij hi hj _ => h.fields_disjoint hij hi hj,
    fun _ _ _ => h.componentAt_end_le_totalBits, ?_⟩
  · intro i ki oi oj hc hnext
    rw [h.componentAt_end_eq hc, (h.offs_eq_some_iff.mp hnext).2]
  · intro hn
    rw [h.totalBits_eq, hn, bitsBefore_zero]
  · intro i ki oi hlast hc
    rw [h.componentAt_end_eq hc, hlast, h.totalBits_eq]
  · have hbuf := h.bufLen_eq
    omega

end Sys2Proof.Machine
end

section
/-! SUPPORT. The masked byte merge (spec/20_memory.md R34): what reads back after a write of one image byte, and what a
merge does to the bits of its byte. -/

namespace Sys2Proof.Machine

/-- A value inside a mask has a set bit only where the mask has one. -/
theorem getLsbD_mask_of_value {m v : Byte} (h : v &&& ~~~m = 0#8) {j : Nat} (hv : v.getLsbD j = true) :
    m.getLsbD j = true := by
  have hbit : (v &&& ~~~m).getLsbD j = false := by rw [h]; exact BitVec.getLsbD_zero
  have hj : j < 8 := BitVec.lt_of_getLsbD hv
  simpa [hv, hj] using hbit

/-- R34 within the byte: a merge gives each bit the value's bit under the mask, and leaves it elsewhere. Bit `j` of byte `a` is
image bit `8 * a + (7 - j)` (R31). -/
theorem imgMerge_read_getLsbD {a j : Nat} {m v : Byte} {s t : State} (h : imgMerge a m v s = .ok t)
    (hv : v &&& ~~~m = 0#8) (hj : j < 8) :
    (t.img.read a).getLsbD j = if m.getLsbD j then v.getLsbD j else (s.img.read a).getLsbD j := by
  have hbit := imgMerge_getBit h (fun _ => getLsbD_mask_of_value hv) (8 * a + (7 - j))
  have hbyte : (8 * a + (7 - j)) / 8 = a := by omega
  have hplace : 7 - (8 * a + (7 - j)) % 8 = j := by omega
  simpa only [getBit, hbyte, hplace, true_and] using hbit

theorem memRead_write_same {a : Nat} {s : State} (v : Byte) (h : a < s.layout.bufLen) :
    memRead a { s with img := s.img.write a v } = .ok v :=
  memRead_eq_ok.mpr ⟨h, Memory.read_write_same _ _ _⟩

/-- A write leaves every other address as it was, one outside the image included. -/
theorem memRead_write_other {a b : Nat} (s : State) (v : Byte) (h : b ≠ a) :
    memRead b { s with img := s.img.write a v } = memRead b s := by
  simp only [memRead, Memory.read_write_other _ _ h]

/-- Settles O17: an empty mask makes no access; any other merge writes its one byte, whose bits are those of R34. -/
theorem maskedMergeWritesOnlyMaskedBits : Obligations.MaskedMergeWritesOnlyMaskedBits := by
  unfold Obligations.MaskedMergeWritesOnlyMaskedBits
  intro a m v s hv
  refine ⟨?_, fun hm ha => ?_⟩
  · rintro rfl
    exact imgMerge_zero a v s
  · have hmerge := imgMerge_of_lt v hm ha
    exact ⟨_, hmerge, ⟨rfl, rfl, rfl, rfl, rfl, rfl, rfl⟩, rfl, memRead_write_same _ ha,
      fun _ => memRead_write_other s _, fun _ => imgMerge_read_getLsbD hmerge hv⟩

end Sys2Proof.Machine
end

section
/-! SUPPORT. What decoding answers, case by case of the opcode `cw[63:60]` (spec/30_encoding.md R57, R58, R63), and the step
of a running engine whose next word decodes or does not. -/

namespace Sys2Proof

section Decode
variable {cw : Word}

theorem opcode_eq (cw : Word) : bitField cw 63 60 = cw.toNat / 2 ^ 60 := by
  have hword := cw.isLt
  rw [bitField_eq]
  exact Nat.mod_eq_of_lt (by omega)

/-- Every bit of a `WRF` word is an operand bit, so none is illegal (R57). -/
theorem decode_of_opcode_one (h : cw.toNat / 2 ^ 60 = 1) :
    decode cw = .ok (.wrf (bitField cw 59 54) (bitField cw 53 40) (sourceOf cw)) := by
  simp only [decode, opcode_eq, h]

theorem decode_of_opcode_two (h : cw.toNat / 2 ^ 60 = 2) :
    decode cw = if bitField cw 43 0 = 0 then .ok (.set (bitField cw 59 52) (byteField cw 44))
      else .error .reservedNotZero := by
  simp only [decode, opcode_eq, h]

theorem decode_of_opcode_three (h : cw.toNat / 2 ^ 60 = 3) :
    decode cw = if bitField cw 59 0 = 0 then .ok .upd else .error .reservedNotZero := by
  simp only [decode, opcode_eq, h]

theorem decode_of_opcode_undefined (h : cw.toNat / 2 ^ 60 = 0 ∨ 4 ≤ cw.toNat / 2 ^ 60) :
    decode cw = .error (.undefinedOpcode (cw.toNat / 2 ^ 60)) := by
  rw [← opcode_eq] at h ⊢
  unfold decode
  split
  · omega
  · omega
  · omega
  · rfl

/-- The low bits of a word, as the reserved fields of R53 and R54 are. -/
theorem bitField_low_eq (cw : Word) (hi : Nat) : bitField cw hi 0 = cw.toNat % 2 ^ (hi + 1) := by
  simp [bitField_eq]

theorem decode_set_of_reserved (hop : cw.toNat / 2 ^ 60 = 2) (hres : cw.toNat % 2 ^ 44 ≠ 0) :
    decode cw = .error .reservedNotZero := by
  rw [decode_of_opcode_two hop, bitField_low_eq, if_neg hres]

theorem decode_upd_of_reserved (hop : cw.toNat / 2 ^ 60 = 3) (hres : cw.toNat % 2 ^ 60 ≠ 0) :
    decode cw = .error .reservedNotZero := by
  rw [decode_of_opcode_three hop, bitField_low_eq, if_neg hres]

end Decode

namespace Machine

section Command
variable {s : State} {cw : Word} {rest : List HostAction}

/-- A step with a word on the port takes the word off and issues it (R50). -/
theorem step_command (hp : s.port = .command cw :: rest) : step s = runCommand cw { s with port := rest } := by
  simp only [step, takeAction, hp]

theorem step_of_decode_ok {i : Instr} (hp : s.port = .command cw :: rest) (he : s.status.err = false)
    (hd : decode cw = .ok i) : step s = exec i { s with port := rest } := by
  simp [step_command hp, runCommand, he, hd]

theorem step_of_decode_error {e : DecodeReject} (hp : s.port = .command cw :: rest) (he : s.status.err = false)
    (hd : decode cw = .error e) : step s = .next (raiseFault .illegal { s with port := rest }) := by
  simp [step_command hp, runCommand, he, hd]

end Command

/-- The width is checked first, so the offset does not matter (R81). -/
theorem exec_wrf_of_illegal_width {s : State} {w : Nat} (off : Nat) (src : SourcePattern) (he : s.status.err = false)
    (hw : w = 0 ∨ 40 < w) : exec (.wrf w off src) s = .next (raiseFault .width s) := by
  have hwidth : w = 0 ∨ w > Config.maxWidth := hw
  simp only [exec, execWrf, he, Bool.false_eq_true, if_false, if_pos hwidth]

/-- Settles O3: the illegal words are those the decoder rejects, and a step on one is the `E_ILLEGAL` fault; a `WRF` word always
decodes, and its width is checked by the command itself. -/
theorem illegalWordsRaiseIllegal : Obligations.IllegalWordsRaiseIllegal := by
  unfold Obligations.IllegalWordsRaiseIllegal
  intro s cw rest hp he
  refine ⟨fun hillegal => ?_, fun hop => ?_⟩
  · have hreject : ∃ e, decode cw = .error e := by
      rcases hillegal with hzero | hhigh | ⟨hop, hres⟩ | ⟨hop, hres⟩
      · exact ⟨_, decode_of_opcode_undefined (.inl hzero)⟩
      · exact ⟨_, decode_of_opcode_undefined (.inr hhigh)⟩
      · exact ⟨_, decode_set_of_reserved hop hres⟩
      · exact ⟨_, decode_upd_of_reserved hop hres⟩
    obtain ⟨e, hd⟩ := hreject
    exact ⟨⟨e, hd⟩, step_of_decode_error hp he hd⟩
  · have hd := decode_of_opcode_one hop
    refine ⟨⟨_, _, _, hd⟩, fun hwidth => ?_⟩
    rw [step_of_decode_ok hp he hd]
    exact exec_wrf_of_illegal_width _ _ he (by rwa [bitField_eq])

end Machine
end Sys2Proof
end

section
/-! SUPPORT. What the Layout Builder's table satisfies for every kind list, how large it can get, and what the three commands do
in an engine whose table is empty (spec/40_layout_builder.md R73, R74, R78). -/

namespace Sys2Proof.Machine

section Build
variable {aw : AlphaWidth} {ks : List ComponentKind}

/-- The offsets `build` records, each the number of bits before its component, one per kind and no others (R73). -/
theorem build_offs_eq_some_iff {i o : Nat} :
    (build aw ks).offs[i]? = some o ↔ i < ks.length ∧ bitsBefore aw ks i = o := by
  by_cases hi : i < ks.length
  · rw [build_offs_getElem aw ks hi]; simp [hi]
  · simp [hi]

/-- The last offset plus the last width is the final counter of the pass (R72, R73). -/
theorem build_totalBits_eq_last_add {x : Nat} {k : ComponentKind} (hx : (build aw ks).offs.getLast? = some x)
    (hk : ks.getLast? = some k) : (build aw ks).totalBits = x + kindWidth aw k := by
  rw [List.getLast?_eq_getElem?, build_offs_length] at hx
  rw [List.getLast?_eq_getElem?] at hk
  obtain ⟨hlast, rfl⟩ := build_offs_eq_some_iff.mp hx
  have hlength : ks.length - 1 + 1 = ks.length := by omega
  calc (build aw ks).totalBits
      = bitsBefore aw ks (ks.length - 1 + 1) := by rw [hlength, build_totalBits]
    _ = bitsBefore aw ks (ks.length - 1) + kindWidth aw k := bitsBefore_succ hk

/-- R74: the table of an engine with no component. -/
@[simp] theorem build_nil (aw : AlphaWidth) : build aw [] = ⟨[], [], 0, 0, 0⟩ := by
  simp [build, bytesFor]

/-- No width exceeds 35 bits, so `i` components take at most `35 * i`. -/
theorem bitsBefore_le (aw : AlphaWidth) (ks : List ComponentKind) (i : Nat) : bitsBefore aw ks i ≤ 35 * i := by
  have hwidth : ∀ w ∈ (ks.take i).map (kindWidth aw), w ≤ 35 := by
    intro w hw
    obtain ⟨k, -, rfl⟩ := List.mem_map.mp hw
    exact (kindWidth_bounds aw k).2
  calc bitsBefore aw ks i
      ≤ ((ks.take i).map (kindWidth aw)).length • 35 := List.sum_le_card_nsmul _ 35 hwidth
    _ ≤ 35 * i := by rw [List.length_map, List.length_take, smul_eq_mul]; omega

end Build

section Command
variable {s : State}

/-- No component has an index at or above `N` (R101, R132). -/
theorem exec_set_of_n_le {idx : Nat} (val : Byte) (he : s.status.err = false) (hi : s.layout.n ≤ idx) :
    exec (.set idx val) s = .next (raiseFault .index s) := by
  have hindex : idx ≥ s.layout.n := hi
  simp only [exec, execSet, he, Bool.false_eq_true, if_false, if_pos hindex]

/-- A field of a legal width that passes the end of the image (R81, R133). -/
theorem exec_wrf_of_out_of_bounds {w off : Nat} (src : SourcePattern) (he : s.status.err = false) (hw : 1 ≤ w)
    (hw' : w ≤ 40) (hb : 8 * s.layout.bufLen < off + w) :
    exec (.wrf w off src) s = .next (raiseFault .bounds s) := by
  have hwidth : ¬ (w = 0 ∨ w > Config.maxWidth) := by simp only [Config.maxWidth]; omega
  have hbounds : off + w > 8 * s.layout.bufLen := hb
  simp only [exec, execWrf, he, Bool.false_eq_true, if_false, if_neg hwidth, if_pos hbounds]

/-- With no image bytes to shift out, `UPD` sends the latch pulse alone, which leaves a low latch low (R74, R118). -/
theorem exec_upd_of_bufLen_zero (he : s.status.err = false) (hlatch : s.latch = false) (hb : s.layout.bufLen = 0) :
    exec .upd s = .next { s with wire := s.wire ++ [.latchHigh, .latchLow], responses := s.responses ++ [.ok] } := by
  have hupd : exec .upd s = execUpd s := rfl
  rw [hupd, execUpd_eq, he, hb]
  simp [respond, lowerLatch, raiseLatch, emit, hlatch]

end Command

namespace EngineInv
variable {s : State}

theorem layout_of_kind_nil (h : EngineInv s) (hk : s.layout.kind = []) : s.layout = ⟨[], [], 0, 0, 0⟩ := by
  rw [h.layoutBuilt, hk, build_nil]

/-- An engine with no image bytes holds the empty image (R11). -/
theorem img_of_bufLen_zero (h : EngineInv s) (hb : s.layout.bufLen = 0) : s.img = [] := by
  refine List.eq_nil_iff_forall_not_mem.mpr fun c hc => ?_
  have hrange := h.imgInRange c hc
  omega

end EngineInv

/-- Settles O13: every clause is read off the table's entries, the partial sums of the widths. -/
theorem layoutSums : Obligations.LayoutSums := by
  unfold Obligations.LayoutSums
  intro aw ks
  have hbuf := build_bufLen aw ks
  refine ⟨build_offs_length aw ks, fun i hi => build_offs_getElem aw ks hi, ?_, ?_, ?_,
    fun _ _ => build_totalBits_eq_last_add, by omega, fun _ => by omega⟩
  · intro hne
    exact build_offs_eq_some_iff.mpr ⟨List.length_pos_of_ne_nil hne, bitsBefore_zero aw ks⟩
  · intro i x y k hx hy hk
    obtain ⟨-, rfl⟩ := build_offs_eq_some_iff.mp hx
    obtain ⟨-, rfl⟩ := build_offs_eq_some_iff.mp hy
    rw [bitsBefore_succ hk]
    omega
  · rintro rfl
    rw [build_nil]

/-- Settles O15: at most 255 components lie before an offset and at most 256 in all, each at most 35 bits wide. -/
theorem layoutBounds : Obligations.LayoutBounds := by
  unfold Obligations.LayoutBounds
  intro aw ks hlength
  have htotal : (build aw ks).totalBits ≤ 35 * ks.length := build_totalBits aw ks ▸ bitsBefore_le aw ks ks.length
  have hbuf := build_bufLen aw ks
  refine ⟨fun x hx => ?_, by omega, by omega, by omega⟩
  obtain ⟨i, hi⟩ := List.mem_iff_getElem?.mp hx
  obtain ⟨hlt, rfl⟩ := build_offs_eq_some_iff.mp hi
  have hoffset := bitsBefore_le aw ks i
  omega

/-- Settles O16: the invariant makes the table of an engine without components the empty one, so no index is below `N`, no field of
a legal width fits the image, and `UPD` has no byte to send. -/
theorem emptyLayoutCommands : Obligations.EmptyLayoutCommands := by
  unfold Obligations.EmptyLayoutCommands
  refine ⟨build_nil, fun s h hk he => ?_⟩
  have hlayout := h.layout_of_kind_nil hk
  have hn : s.layout.n = 0 := by rw [hlayout]
  have hbuf : s.layout.bufLen = 0 := by rw [hlayout]
  refine ⟨h.img_of_bufLen_zero hbuf, fun idx val => ?_, fun w off src hw => ?_, fun w off src hw hw' => ?_, ?_⟩
  · exact exec_set_of_n_le val he (by omega)
  · exact exec_wrf_of_illegal_width off src he hw
  · exact exec_wrf_of_out_of_bounds src he hw hw' (by omega)
  · exact exec_upd_of_bufLen_zero he h.latchLow hbuf

end Sys2Proof.Machine
end

section
/-! SUPPORT. What `WRF` does, said once (spec/41_field_writer.md R81, R89): its outcome in each case of its checks, everything a
`WRF` that answers can have done, and which source bits it reads. The facts about images read bit by bit carry the image rules
R89 to R96 from single bits to bytes and to the whole image. -/

namespace Sys2Proof.Machine

section Image
variable {s t : State}

theorem getBit_of_img_eq (h : t.img = s.img) (p : Nat) : getBit p t = getBit p s := by
  simp only [getBit, h]

/-- A byte of the image is its eight image bits (R31). -/
theorem read_eq_of_getBit {a : Nat} (h : ∀ p, p / 8 = a → getBit p t = getBit p s) : t.img.read a = s.img.read a := by
  refine BitVec.eq_of_getLsbD_eq fun j hj => ?_
  have hbyte : (8 * a + (7 - j)) / 8 = a := by omega
  have hplace : 7 - (8 * a + (7 - j)) % 8 = j := by omega
  simpa only [getBit, hbyte, hplace] using h _ hbyte

/-- Canonical images with the same bits are the same data. -/
theorem img_eq_of_getBit (hs : Memory.wf s.img) (ht : Memory.wf t.img) (h : ∀ p, getBit p t = getBit p s) :
    t.img = s.img :=
  Memory.ext_read ht hs fun _ => read_eq_of_getBit fun p _ => h p

theorem ImageStep.responses (h : ImageStep s t) : t.responses = s.responses := by rw [h.frame]

theorem ImageStep.onlyImageChanged (h : ImageStep s t) : OnlyImageChanged s t := by
  rw [h.frame]
  exact ⟨rfl, rfl, rfl, rfl, rfl, rfl, rfl⟩

/-- The response log is outside the frame `OnlyImageChanged`. -/
theorem OnlyImageChanged.respond (h : OnlyImageChanged s t) (r : Response) : OnlyImageChanged s (respond r t) :=
  ⟨h.layout, h.status, h.wire, h.latch, h.alphaWidth, h.parameters, h.port⟩

end Image

section Source
variable {src src' : SourcePattern}

/-- A source byte past the pattern stops the model, whatever the pattern (log 9). -/
theorem maskedSource_of_ge (src : SourcePattern) {i k : Nat} (hk : k ≠ 0) (hi : 5 ≤ i) :
    maskedSource src i k = .error (.sourceIndex i) := by
  simp [maskedSource, hk, Vector.getElem?_eq_none hi]

/-- The masked source byte depends on the `k` pattern bits it keeps and on no other (R85, R96). -/
theorem maskedSource_congr {i k : Nat} (hk : k ≤ 8)
    (h : ∀ q, 8 * i ≤ q → q < 8 * i + k → srcBit src q = srcBit src' q) :
    maskedSource src i k = maskedSource src' i k := by
  by_cases h0 : k = 0
  · subst h0
    simp only [maskedSource_zero]
  · by_cases hi : i < 5
    · have hv := maskedSource_of_lt src h0 hi
      have hv' := maskedSource_of_lt src' h0 hi
      rw [hv, hv']
      refine congrArg Except.ok (BitVec.eq_of_getLsbD_eq fun j hj => ?_)
      rw [maskedSource_getLsbD hk hv hj, maskedSource_getLsbD hk hv' hj]
      by_cases hkept : 8 - k ≤ j
      · rw [h _ (by omega) (by omega)]
      · simp only [hkept, decide_false, Bool.false_and]
    · rw [maskedSource_of_ge src h0 (by omega), maskedSource_of_ge src' h0 (by omega)]

/-- Iteration `i` reads pattern bits `8 * i` up to the end of the field, so patterns equal within the field go through the
loop alike (R96). -/
theorem fieldWriteLoop_congr {width n : Nat} {r : FieldWriterRegs} {s : State} (hc : r.copied = min width (8 * r.i))
    (h : ∀ q, q < width → srcBit src q = srcBit src' q) :
    fieldWriteLoop width src n r s = fieldWriteLoop width src' n r s := by
  induction n generalizing r s with
  | zero => rfl
  | succ n ih =>
    have hkept : keptBits width r = min 8 (width - r.copied) := rfl
    have hbyte : maskedSource src r.i (keptBits width r) = maskedSource src' r.i (keptBits width r) :=
      maskedSource_congr (keptBits_le width r) fun q hq hq' => h q (by omega)
    have hnext : (r.advance width).copied = min width (8 * (r.advance width).i) := by
      simp only [advance_copied, advance_i]; omega
    simp only [fieldWriteLoop, fieldWriteIteration, hbyte, ih hnext]

theorem fieldWrite_congr {off width : Nat} {s : State} (h : ∀ q, q < width → srcBit src q = srcBit src' q) :
    fieldWrite off width src s = fieldWrite off width src' s :=
  fieldWriteLoop_congr (by simp [fieldWriterSetup]) h

theorem srcBit_zero (q : Nat) : srcBit #v[0x00#8, 0x00#8, 0x00#8, 0x00#8, 0x00#8] q = false := by
  have hzero : (#v[0x00#8, 0x00#8, 0x00#8, 0x00#8, 0x00#8] : SourcePattern) = Vector.replicate 5 0x00#8 := rfl
  by_cases hq : q / 8 < 5 <;> simp [srcBit, hzero, hq]

end Source

section Command
variable {s t : State} {w off : Nat} {src : SourcePattern}

/-- R136: the halt is checked before everything else. -/
theorem exec_wrf_of_halted (w off : Nat) (src : SourcePattern) (he : s.status.err = true) :
    exec (.wrf w off src) s = .next (respondHalted s) := by
  simp only [exec, execWrf, he, if_true]

/-- A `WRF` that passes its checks runs the Field Writer to its end (R81, R87). -/
theorem exec_wrf_of_accepted (src : SourcePattern) (h : WrfAccepted w off s) :
    ∃ u, fieldWrite off w src s = .ok u ∧ exec (.wrf w off src) s = .next (respond .ok u) := by
  obtain ⟨he, hw, hw', hb⟩ := h
  obtain ⟨u, hu⟩ := fieldWrite_total src hw' hb
  have hwidth : ¬ (w = 0 ∨ w > Config.maxWidth) := by simp only [Config.maxWidth]; omega
  have hbounds : ¬ off + w > 8 * s.layout.bufLen := by omega
  refine ⟨u, hu, ?_⟩
  simp only [exec, execWrf, he, Bool.false_eq_true, if_false, if_neg hwidth, if_neg hbounds, hu, complete_ok]

/-- A `WRF` that answers either leaves a halted engine and writes nothing but `STATUS`, or is a field write answered `OK`. -/
theorem exec_wrf_cases (h : exec (.wrf w off src) s = .next t) :
    (t.status.err = true ∧ t = { s with status := t.status, responses := t.responses }) ∨
    ∃ u, fieldWrite off w src s = .ok u ∧ t = respond .ok u := by
  rcases execWrf_cases h with ⟨he, rfl⟩ | ⟨-, -, rfl⟩ | ⟨-, -, -, rfl⟩ | ⟨-, -, -, hwrite⟩
  · exact .inl ⟨he, rfl⟩
  · exact .inl ⟨rfl, rfl⟩
  · exact .inl ⟨rfl, rfl⟩
  · exact .inr hwrite

/-- A field write leaves every byte that holds no bit of the field (R94). -/
theorem fieldWrite_memRead_outside {a : Nat} (h : fieldWrite off w src s = .ok t)
    (ha : a < off / 8 ∨ (off + w - 1) / 8 < a) : memRead a t = memRead a s := by
  have hread : t.img.read a = s.img.read a := read_eq_of_getBit fun p hp => by
    rw [fieldWrite_getBit h p, if_neg (by omega)]
  simp only [memRead, hread, (fieldWrite_imageStep h).layout]

end Command

/-- Settles O18: the closed form is read off the nine entries, the bits are those of `lead_getLsbD`. -/
theorem maskTableLeadingBits : Obligations.MaskTableLeadingBits := by
  unfold Obligations.MaskTableLeadingBits
  intro k hk
  refine ⟨?_, fun j hj => ?_⟩
  · interval_cases k <;> rfl
  · rw [lead_getLsbD hk, decide_eq_true hj, Bool.and_true]

/-- Settles O19: one equation of `exec` for each case of the checks. -/
theorem wrfChecksInOrder : Obligations.WrfChecksInOrder := by
  unfold Obligations.WrfChecksInOrder
  intro s w off src
  refine ⟨exec_wrf_of_halted w off src, exec_wrf_of_illegal_width off src, exec_wrf_of_out_of_bounds src, fun h => ?_⟩
  obtain ⟨u, hu, hexec⟩ := exec_wrf_of_accepted src h
  exact ⟨u, hu, by rw [hexec, respond, (fieldWrite_imageStep hu).responses]⟩

/-- Settles O20: an accepted `WRF` is a field write, whose bits are those of `fieldWrite_getBit`. -/
theorem wrfWritesExactlyItsField : Obligations.WrfWritesExactlyItsField := by
  unfold Obligations.WrfWritesExactlyItsField
  intro s w off src h
  obtain ⟨u, hu, hexec⟩ := exec_wrf_of_accepted src h
  have hstep := fieldWrite_imageStep hu
  refine ⟨respond .ok u, hexec, fun p => ?_, hstep.onlyImageChanged.respond .ok, ?_⟩
  · rw [getBit_respond, fieldWrite_getBit hu]
  · rw [respond_responses, hstep.responses]

/-- Settles O22: a `WRF` that writes the image at all answers `OK`, and writes its field only. -/
theorem wrfPreservesBitsOutsideField : Obligations.WrfPreservesBitsOutsideField := by
  unfold Obligations.WrfPreservesBitsOutsideField
  intro s t w off src h
  rcases exec_wrf_cases h with ⟨-, hframe⟩ | ⟨u, hu, rfl⟩
  · have himg : t.img = s.img := by rw [hframe]
    exact ⟨fun p _ => getBit_of_img_eq himg p, fun _ => getBit_of_img_eq himg⟩
  · refine ⟨fun p hp => ?_, fun hne => absurd ?_ hne⟩
    · rw [getBit_respond, fieldWrite_getBit hu, if_neg hp]
    · rw [respond_responses, (fieldWrite_imageStep hu).responses]

/-- Settles O23: the second write gives each bit of the field the value it has, so the two canonical images have the same bits. A
first `WRF` that faults leaves a halted engine, and a second that faults leaves the image. -/
theorem wrfTwiceLeavesSameImage : Obligations.WrfTwiceLeavesSameImage := by
  unfold Obligations.WrfTwiceLeavesSameImage
  intro s t u w off src hwf ht hu
  rcases exec_wrf_cases ht with ⟨hhalted, -⟩ | ⟨t', ht', rfl⟩
  · rw [exec_wrf_of_halted w off src hhalted] at hu
    cases hu
    rfl
  · rcases exec_wrf_cases hu with ⟨-, hframe⟩ | ⟨u', hu', rfl⟩
    · rw [hframe]
    · have hwf' : Memory.wf t'.img := (fieldWrite_imageStep ht').wf hwf
      refine img_eq_of_getBit hwf' ((fieldWrite_imageStep hu').wf hwf') fun p => ?_
      by_cases hp : InField off w p
      · rw [getBit_respond, getBit_respond, fieldWrite_getBit hu', if_pos hp, fieldWrite_getBit ht', if_pos hp]
      · rw [getBit_respond, fieldWrite_getBit hu', if_neg hp]

/-- Settles O24: the first write changes nothing the checks read, so the second is accepted too, and the zero pattern has no set
bit. -/
theorem wrfThenZeroRestoresSurroundings : Obligations.WrfThenZeroRestoresSurroundings := by
  unfold Obligations.WrfThenZeroRestoresSurroundings
  intro s w off src h
  obtain ⟨t, ht, hbits, hframe, -⟩ := wrfWritesExactlyItsField s w off src h
  have haccepted : WrfAccepted w off t := by rwa [WrfAccepted, hframe.status, hframe.layout]
  obtain ⟨u, hu, hbits', -, -⟩ := wrfWritesExactlyItsField t w off _ haccepted
  refine ⟨t, u, ht, hu, fun p => ?_⟩
  by_cases hp : InField off w p
  · rw [hbits', if_pos hp, if_pos hp, srcBit_zero]
  · rw [hbits', if_neg hp, if_neg hp, hbits, if_neg hp]

/-- Settles O25: the checks do not read the pattern, and the Field Writer reads it within the field only. -/
theorem wrfIgnoresSourceAfterField : Obligations.WrfIgnoresSourceAfterField := by
  unfold Obligations.WrfIgnoresSourceAfterField
  intro s w off src src' h
  simp only [exec, execWrf, fieldWrite_congr h]

/-- Settles O26: a halted or faulting `WRF` leaves the image; a field write changes the image only, in the bytes of its field. -/
theorem wrfFrame : Obligations.WrfFrame := by
  unfold Obligations.WrfFrame
  intro s t w off src h
  rcases exec_wrf_cases h with ⟨-, hframe⟩ | ⟨u, hu, rfl⟩
  · refine ⟨fun a _ => ?_, .inr hframe, ?_⟩
    · rw [hframe]; rfl
    · rw [hframe]
  · have honly := (fieldWrite_imageStep hu).onlyImageChanged.respond .ok
    refine ⟨fun a ha => ?_, .inl honly, honly.wire⟩
    rw [memRead_respond, fieldWrite_memRead_outside hu ha]

end Sys2Proof.Machine
end

section
/-! SUPPORT. What `SET` does, said once (spec/42_set_encoder.md R101, R108, R109): its outcome in each case of its one check,
everything a `SET` that answers can have done, and the patterns of the two kinds that need no table. -/

namespace Sys2Proof.Machine

section Component
variable {s : State} {idx off off' : Nat} {kind kind' : ComponentKind}

/-- An index names at most one kind and one offset (R12). -/
theorem componentAt_unique (h : ComponentAt s idx kind off) (h' : ComponentAt s idx kind' off') :
    kind' = kind ∧ off' = off := by
  obtain ⟨hk, ho⟩ := h
  obtain ⟨hk', ho'⟩ := h'
  exact ⟨Option.some.inj (hk'.symm.trans hk), Option.some.inj (ho'.symm.trans ho)⟩

namespace EngineInv

/-- Every index below `N` names a component (R12, R13). -/
theorem exists_componentAt (h : EngineInv s) (hi : idx < s.layout.n) : ∃ kind off, ComponentAt s idx kind off :=
  ⟨_, _, List.getElem?_eq_getElem (h.n_eq ▸ hi), h.offs_eq_some_iff.mpr ⟨hi, rfl⟩⟩

theorem componentAt_lt_n (h : EngineInv s) (hc : ComponentAt s idx kind off) : idx < s.layout.n :=
  (h.offs_eq_some_iff.mp hc.2).1

/-- A component's field ends inside the image, so `SET` needs no bounds check (R108). -/
theorem componentAt_end_le_image (h : EngineInv s) (hc : ComponentAt s idx kind off) :
    off + kindWidth s.alphaWidth kind ≤ 8 * s.layout.bufLen := by
  have hend := h.componentAt_end_le_totalBits hc
  have hbuf := h.bufLen_eq
  omega

end EngineInv
end Component

section Command
variable {s t : State} {idx off : Nat} {val : Byte} {kind : ComponentKind}

/-- R136: the halt is checked before the index. -/
theorem exec_set_of_halted (idx : Nat) (val : Byte) (he : s.status.err = true) :
    exec (.set idx val) s = .next (respondHalted s) := by
  simp only [exec, execSet, he, if_true]

/-- Past the index check `SET` is the field write of the encoded value (R108). -/
theorem exec_set_of_componentAt (val : Byte) (he : s.status.err = false) (hi : idx < s.layout.n)
    (hc : ComponentAt s idx kind off) :
    exec (.set idx val) s
      = complete (fieldWrite off (kindWidth s.alphaWidth kind) (encodeValue s.parameters kind val) s) := by
  obtain ⟨hk, ho⟩ := hc
  have hindex : ¬ idx ≥ s.layout.n := by omega
  simp only [exec, execSet, he, Bool.false_eq_true, if_false, if_neg hindex, hk, ho]

/-- Under the invariant that field write runs to its end, whatever the value (R108). -/
theorem exec_set_completes (val : Byte) (h : EngineInv s) (he : s.status.err = false)
    (hc : ComponentAt s idx kind off) :
    ∃ u, fieldWrite off (kindWidth s.alphaWidth kind) (encodeValue s.parameters kind val) s = .ok u ∧
      exec (.set idx val) s = .next (respond .ok u) := by
  have hwidth : kindWidth s.alphaWidth kind ≤ 40 := (kindWidth_bounds s.alphaWidth kind).2.trans (by decide)
  obtain ⟨u, hu⟩ := fieldWrite_total (encodeValue s.parameters kind val) hwidth (h.componentAt_end_le_image hc)
  refine ⟨u, hu, ?_⟩
  rw [exec_set_of_componentAt val he (h.componentAt_lt_n hc) hc, hu, complete_ok]

/-- A `SET` that answers either writes nothing but `STATUS`, or is a write of its component's field answered `OK` (R109). -/
theorem exec_set_cases (h : exec (.set idx val) s = .next t) :
    t = { s with status := t.status, responses := t.responses } ∨
    ∃ kind off u, ComponentAt s idx kind off ∧
      fieldWrite off (kindWidth s.alphaWidth kind) (encodeValue s.parameters kind val) s = .ok u ∧
      t = respond .ok u := by
  rcases execSet_cases h with ⟨-, rfl⟩ | ⟨-, -, rfl⟩ | ⟨-, -, kind, off, u, hk, ho, hu, rfl⟩
  · exact .inl rfl
  · exact .inl rfl
  · exact .inr ⟨kind, off, u, ⟨hk, ho⟩, hu, rfl⟩

/-- A `SET`, faulting or not, leaves every image bit that is not in a field of its index (R109, R112). -/
theorem exec_set_getBit_outside {p : Nat} (h : exec (.set idx val) s = .next t)
    (hp : ∀ kind off, ComponentAt s idx kind off → ¬ InField off (kindWidth s.alphaWidth kind) p) :
    getBit p t = getBit p s := by
  rcases exec_set_cases h with hframe | ⟨kind, off, u, hc, hu, rfl⟩
  · exact getBit_of_img_eq (by rw [hframe]) p
  · rw [getBit_respond, fieldWrite_getBit hu, if_neg (hp kind off hc)]

/-- A `SET`, faulting or not, leaves every byte that holds no bit of its component's field (R109). -/
theorem exec_set_memRead_outside {a : Nat} (h : exec (.set idx val) s = .next t) (hc : ComponentAt s idx kind off)
    (ha : a < off / 8 ∨ (off + kindWidth s.alphaWidth kind - 1) / 8 < a) : memRead a t = memRead a s := by
  rcases exec_set_cases h with hframe | ⟨kind', off', u, hc', hu, rfl⟩
  · rw [hframe]; rfl
  · obtain ⟨rfl, rfl⟩ := componentAt_unique hc hc'
    rw [memRead_respond, fieldWrite_memRead_outside hu ha]

end Command

section Encode

/-- R106: any value but `'0'` switches an LED on. -/
theorem encodeValue_led_of_ne (p : ParameterSet) {val : Byte} (h : val ≠ 0x30#8) :
    encodeValue p .led val = #v[0x80#8, 0x00#8, 0x00#8, 0x00#8, 0x00#8] := by
  simp [encodeValue, charZero, h]

/-- R106: the one bit of an LED's pattern. -/
theorem srcBit_encodeValue_led (p : ParameterSet) (val : Byte) :
    srcBit (encodeValue p .led val) 0 = decide (val ≠ 0x30#8) := by
  by_cases h : val = 0x30#8
  · subst h
    exact srcBit_zero 0
  · rw [encodeValue_led_of_ne p h, decide_eq_true h]
    rfl

/-- R107: the 35 bits of a matrix's pattern. -/
theorem srcBit_encodeValue_matrix5x7 (p : ParameterSet) (val : Byte) {q : Nat} (hq : q < 35) :
    srcBit (encodeValue p .matrix5x7 val) q = true := by
  rw [encodeValue]
  decide +revert

end Encode

/-- Settles O28: one equation of `exec` for each case of the check; an index below `N` names a component. -/
theorem setChecksIndex : Obligations.SetChecksIndex := by
  unfold Obligations.SetChecksIndex
  intro s idx val
  refine ⟨exec_set_of_halted idx val, exec_set_of_n_le val, fun h he hi => ?_⟩
  obtain ⟨kind, off, hc⟩ := h.exists_componentAt hi
  obtain ⟨u, hu, hexec⟩ := exec_set_completes val h he hc
  exact ⟨kind, off, u, hc, hu, by rw [hexec, respond, (fieldWrite_imageStep hu).responses]⟩

/-- Settles O29: the `SET` is a field write, whose bits are those of `fieldWrite_getBit`. -/
theorem setWritesEncodedValue : Obligations.SetWritesEncodedValue := by
  unfold Obligations.SetWritesEncodedValue
  intro s idx val kind off h he _ hc
  obtain ⟨hpos, hle⟩ := kindWidth_bounds s.alphaWidth kind
  obtain ⟨u, hu, hexec⟩ := exec_set_completes val h he hc
  have hstep := fieldWrite_imageStep hu
  refine ⟨hpos, hle, h.componentAt_end_le_image hc, respond .ok u, hexec, fun p => ?_,
    hstep.onlyImageChanged.respond .ok, ?_⟩
  · rw [getBit_respond, fieldWrite_getBit hu]
  · rw [respond_responses, hstep.responses]

/-- Settles O30: a halted or faulting `SET` writes `STATUS` at most; any other writes the image only, within its component's
field. -/
theorem setFrame : Obligations.SetFrame := by
  unfold Obligations.SetFrame
  intro s t idx val h
  have hframe : OnlyImageChanged s t ∨ t = { s with status := t.status, responses := t.responses } := by
    rcases exec_set_cases h with hstatus | ⟨_, _, u, -, hu, rfl⟩
    · exact .inr hstatus
    · exact .inl ((fieldWrite_imageStep hu).onlyImageChanged.respond .ok)
  refine ⟨hframe, ?_, fun kind off hc => ⟨fun p hp => ?_, fun a => exec_set_memRead_outside h hc⟩⟩
  · rcases hframe with honly | hstatus
    · exact honly.wire
    · rw [hstatus]
  · refine exec_set_getBit_outside h fun kind' off' hc' => ?_
    obtain ⟨rfl, rfl⟩ := componentAt_unique hc hc'
    exact hp

/-- Settles O31: a bit of another component is outside the field since fields are disjoint, a pad bit since the field ends at or
before `TOTAL_BITS`. -/
theorem setTouchesNoOtherComponent : Obligations.SetTouchesNoOtherComponent := by
  unfold Obligations.SetTouchesNoOtherComponent
  intro s t i val hinv h
  obtain ⟨-, -, houtside⟩ := setFrame s t i val h
  refine ⟨fun kind off hc => (houtside kind off hc).1, fun j kind off hji hj p hp => ?_, fun p hp => ?_⟩
  · exact exec_set_getBit_outside h fun _ _ hi => hinv.fields_disjoint hji hj hi hp
  · refine exec_set_getBit_outside h fun _ _ hi => ?_
    have hend := hinv.componentAt_end_le_totalBits hi
    omega

/-- Settles O34: the field of an LED is its one bit, bit 0 of the pattern. -/
theorem setLedIsOffOnlyForZero : Obligations.SetLedIsOffOnlyForZero := by
  unfold Obligations.SetLedIsOffOnlyForZero
  refine ⟨fun _ => rfl, fun p _ => encodeValue_led_of_ne p, fun s idx off val h he hi hc => ?_⟩
  obtain ⟨-, -, -, t, ht, hbits, -, -⟩ := setWritesEncodedValue s idx val .led off h he hi hc
  have hwidth : kindWidth s.alphaWidth .led = 1 := rfl
  rw [hwidth] at hbits
  refine ⟨t, ht, ?_, fun p hp => ?_⟩
  · rw [hbits, if_pos (by omega), Nat.sub_self, srcBit_encodeValue_led]
  · rw [hbits, if_neg (by omega)]

/-- Settles O35: the field of a matrix is the 35 leading bits of the pattern, all of them ones. -/
theorem setMatrixLightsAllDots : Obligations.SetMatrixLightsAllDots := by
  unfold Obligations.SetMatrixLightsAllDots
  refine ⟨fun _ _ => rfl, fun s idx off val h he hi hc => ?_⟩
  obtain ⟨-, -, -, t, ht, hbits, -, -⟩ := setWritesEncodedValue s idx val .matrix5x7 off h he hi hc
  have hwidth : kindWidth s.alphaWidth .matrix5x7 = 35 := rfl
  rw [hwidth] at hbits
  refine ⟨t, ht, fun q hq => ?_, fun p hp => ?_⟩
  · rw [hbits, if_pos (by omega), Nat.add_sub_cancel_left, srcBit_encodeValue_matrix5x7 _ _ hq]
  · rw [hbits, if_neg hp]

end Sys2Proof.Machine
end

section
/-! SUPPORT. What `UPD` sends (spec/43_serializer.md R116 to R120): the image's bits, last bit first, as one burst that ends in the
latch pulse. -/

namespace Sys2Proof.Machine

section Burst
variable {s : State}

/-- R117 in the numbering of R31: value bit `j` of byte `a` is image bit `8 * a + (7 - j)`. -/
theorem getBit_of_byte {j : Nat} (a : Nat) (hj : j < 8) : getBit (8 * a + (7 - j)) s = (s.img.read a).getLsbD j := by
  have hbyte : (8 * a + (7 - j)) / 8 = a := by omega
  have hplace : 7 - (8 * a + (7 - j)) % 8 = j := by omega
  rw [getBit, hbyte, hplace]

/-- The image's first `8 * n` bits, last bit first. -/
def bitsBackwards (n : Nat) (s : State) : List Bool :=
  (List.range (8 * n)).map (fun t => getBit (8 * n - 1 - t) s)

@[simp] theorem bitsBackwards_length (n : Nat) (s : State) : (bitsBackwards n s).length = 8 * n := by
  simp [bitsBackwards]

theorem bitsBackwards_getElem? {n t : Nat} (s : State) (ht : t < 8 * n) :
    (bitsBackwards n s)[t]? = some (getBit (8 * n - 1 - t) s) := by
  simp [bitsBackwards, ht]

/-- One more byte: its eight bits come before those of the lower addresses (R116, R117). -/
theorem bitsBackwards_succ (n : Nat) (s : State) :
    bitsBackwards (n + 1) s = (List.range 8).map (s.img.read n).getLsbD ++ bitsBackwards n s := by
  have hcount : 8 * (n + 1) = 8 + 8 * n := by omega
  rw [bitsBackwards, hcount, List.range_add, List.map_append, List.map_map, bitsBackwards]
  congr 1
  · refine List.map_congr_left fun j hj => ?_
    have hj : j < 8 := List.mem_range.mp hj
    have hbit : 8 + 8 * n - 1 - j = 8 * n + (7 - j) := by omega
    rw [hbit, getBit_of_byte n hj]
  · refine List.map_congr_left fun t _ => ?_
    have hbit : 8 + 8 * n - 1 - (8 + t) = 8 * n - 1 - t := by omega
    rw [Function.comp_apply, hbit]

/-- The serializer's events over the bytes below `n`, bit by bit (R120). -/
theorem byteEvents_flatMap_eq (n : Nat) (s : State) :
    ((List.range n).reverse).flatMap (fun b => byteEvents (s.img.read b)) = (bitsBackwards n s).map .shift := by
  induction n with
  | zero => rfl
  | succ n ih =>
    rw [bitsBackwards_succ, List.map_append, ← ih, List.map_map, List.range_succ, List.reverse_concat, List.flatMap_cons]
    rfl

/-- The events of one `UPD`: the bits of the whole image, then one latch pulse. -/
def updBurst (s : State) : List WireEvent :=
  (bitsBackwards s.layout.bufLen s).map .shift ++ [.latchHigh, .latchLow]

/-- R119, R120: an `UPD` of a running engine appends its burst and answers `OK`. -/
theorem exec_upd_of_running (he : s.status.err = false) :
    exec .upd s = .next { s with wire := s.wire ++ updBurst s, latch := false, responses := s.responses ++ [.ok] } := by
  have hupd : exec .upd s = execUpd s := rfl
  rw [hupd, execUpd_eq, he, byteEvents_flatMap_eq]
  simp [respond, lowerLatch, raiseLatch, emit, updBurst]

@[simp] theorem updBurst_length (s : State) : (updBurst s).length = 8 * s.layout.bufLen + 2 := by
  simp [updBurst]

theorem updBurst_getElem?_shift {t : Nat} (ht : t < 8 * s.layout.bufLen) :
    (updBurst s)[t]? = some (.shift (getBit (8 * s.layout.bufLen - 1 - t) s)) := by
  rw [updBurst, List.getElem?_append_left (by simpa using ht), List.getElem?_map, bitsBackwards_getElem? s ht,
    Option.map_some]

theorem updBurst_getElem?_latch (s : State) (i : Nat) :
    (updBurst s)[8 * s.layout.bufLen + i]? = [WireEvent.latchHigh, .latchLow][i]? := by
  rw [updBurst, List.getElem?_append_right (by simp)]
  simp

end Burst

/-- Settles O36: the bytes' events are the image's bits, last bit first. -/
theorem updSendsImageBackwards : Obligations.UpdSendsImageBackwards := by
  unfold Obligations.UpdSendsImageBackwards
  intro s he
  rw [exec_upd_of_running he, updBurst, bitsBackwards, List.map_map, List.append_assoc]
  rfl

/-- Settles O37: event `8 * r + j` is image bit `8 * BUFLEN - 1 - (8 * r + j)`, which is value bit `j` of byte
`BUFLEN - 1 - r`. -/
theorem updByteAndBitOrder : Obligations.UpdByteAndBitOrder := by
  unfold Obligations.UpdByteAndBitOrder
  intro s he
  refine ⟨_, updBurst s, exec_upd_of_running he, rfl, updBurst_length s, fun r j hr hj => ?_,
    updBurst_getElem?_latch s 0, updBurst_getElem?_latch s 1⟩
  have hbit : 8 * s.layout.bufLen - 1 - (8 * r + j) = 8 * (s.layout.bufLen - 1 - r) + (7 - j) := by omega
  rw [updBurst_getElem?_shift (by omega), hbit, getBit_of_byte _ hj]

/-- Settles O39: the frames of `WRF` and `SET` keep `WIRE`; an `UPD` keeps what its burst depends on, the image and the
layout. -/
theorem onlyUpdEmitsWireEvents : Obligations.OnlyUpdEmitsWireEvents := by
  unfold Obligations.OnlyUpdEmitsWireEvents
  refine ⟨fun i s t hi h => ?_, fun s he => ?_⟩
  · cases i with
    | wrf w off src =>
      obtain ⟨-, -, hwire⟩ := wrfFrame s t w off src h
      exact hwire
    | set idx val =>
      obtain ⟨-, hwire, -⟩ := setFrame s t idx val h
      exact hwire
    | upd => exact absurd rfl hi
  · exact ⟨_, _, bitsBackwards s.layout.bufLen s, exec_upd_of_running he, exec_upd_of_running he,
      bitsBackwards_length _ s, rfl, rfl⟩

/-- Settles O41: the burst of the example's 3-byte image, evaluated. -/
theorem workedUpdate : Obligations.WorkedUpdate := by
  unfold Obligations.WorkedUpdate
  exact ⟨by decide, _, exec_upd_of_running rfl, by decide⟩

end Sys2Proof.Machine
end

section
/-! SUPPORT. What one command word does to `STATUS` and answers (spec/60_exceptions.md R136 to R141): a halted engine's answer,
everything a running engine's command can do, and the one response of each command. -/

namespace Sys2Proof.Machine

/-- `E_HALTED` is the code of no fault (R131, R136). -/
theorem FaultCause.code_ne_halted (c : FaultCause) : c.code ≠ 0xF#4 := by
  cases c <;> decide

section Outcome
variable {s t : State} {i : Instr} {cw : Word} {rest : List HostAction}

theorem ImageStep.status (h : ImageStep s t) : t.status = s.status := by rw [h.frame]

/-- A command that answers in a running engine raises a fault, or leaves `STATUS` and answers `OK` (R138, R139). -/
theorem exec_cases_of_running (he : s.status.err = false) (h : exec i s = .next t) :
    (∃ c, t = raiseFault c s) ∨ ∃ u, u.status = s.status ∧ u.responses = s.responses ∧ t = respond .ok u := by
  cases i with
  | wrf w off src =>
    rcases execWrf_cases h with ⟨hhalt, -⟩ | ⟨-, -, ht⟩ | ⟨-, -, -, ht⟩ | ⟨-, -, -, u, hu, ht⟩
    · simp [he] at hhalt
    · exact .inl ⟨.width, ht⟩
    · exact .inl ⟨.bounds, ht⟩
    · have hstep := fieldWrite_imageStep hu
      exact .inr ⟨u, hstep.status, hstep.responses, ht⟩
  | set idx val =>
    rcases execSet_cases h with ⟨hhalt, -⟩ | ⟨-, -, ht⟩ | ⟨-, -, _, _, u, -, -, hu, ht⟩
    · simp [he] at hhalt
    · exact .inl ⟨.index, ht⟩
    · have hstep := fieldWrite_imageStep hu
      exact .inr ⟨u, hstep.status, hstep.responses, ht⟩
  | upd =>
    rw [exec_upd_of_running he] at h
    cases h
    exact .inr ⟨{ s with wire := s.wire ++ updBurst s, latch := false }, rfl, rfl, rfl⟩

/-- The same of a step on a word: an illegal one raises a fault too (R135). -/
theorem step_cases_of_running (hp : s.port = .command cw :: rest) (he : s.status.err = false) (h : step s = .next t) :
    (∃ c, t = raiseFault c { s with port := rest }) ∨
      ∃ u, u.status = s.status ∧ u.responses = s.responses ∧ t = respond .ok u := by
  cases hd : decode cw with
  | error e =>
    rw [step_of_decode_error hp he hd] at h
    cases h
    exact .inl ⟨.illegal, rfl⟩
  | ok i =>
    rw [step_of_decode_ok hp he hd] at h
    exact exec_cases_of_running (s := { s with port := rest }) he h

/-- R136: a halted engine does not look at the word. -/
theorem step_of_halted (hp : s.port = .command cw :: rest) (he : s.status.err = true) :
    step s = .next (respondHalted { s with port := rest }) := by
  rw [step_command hp]
  exact if_pos he

/-- A step that answers, by the host's next action: none, a reset, or a word (R149, R150, R162). -/
theorem step_cases_by_action (h : step s = .next t) :
    (s.port = [] ∧ t = s) ∨
    (∃ cfg rest, s.port = .reset cfg :: rest ∧ t = { State.resetWith cfg with port := rest }) ∨
    ∃ cw rest, s.port = .command cw :: rest := by
  rcases step_cases h with ⟨hp, ht⟩ | ⟨cfg, rest, hp, ht⟩ | ⟨cw, rest, hp, -⟩ | ⟨cw, rest, -, hp, -⟩ |
    ⟨cw, rest, -, hp, -⟩
  · cases ht
    exact .inl ⟨hp, rfl⟩
  · exact .inr (.inl ⟨cfg, rest, hp, (applyReset_eq_next ht.symm).2⟩)
  all_goals exact .inr (.inr ⟨cw, rest, hp⟩)

/-- Everything a step can do to `STATUS`: keep it, clear it by a reset, or record a fault (R139, R141). -/
theorem step_status_cases (h : step s = .next t) :
    t.status = s.status ∨ t.status = ⟨false, 0#4⟩ ∨ ∃ c : FaultCause, t.status = ⟨true, c.code⟩ := by
  rcases step_cases_by_action h with ⟨-, rfl⟩ | ⟨cfg, rest, -, rfl⟩ | ⟨cw, rest, hp⟩
  · exact .inl rfl
  · exact .inr (.inl rfl)
  · cases he : s.status.err with
    | true =>
      rw [step_of_halted hp he] at h
      cases h
      exact .inl rfl
    | false =>
      rcases step_cases_of_running hp he h with ⟨c, rfl⟩ | ⟨u, hstatus, -, rfl⟩
      · exact .inr (.inr ⟨c, rfl⟩)
      · exact .inl hstatus

end Outcome

section Answer
variable {s : State}

/-- The invariant does not speak of the host's pending actions. -/
theorem EngineInv.with_port (h : EngineInv s) (port : List HostAction) : EngineInv { s with port := port } :=
  ⟨h.imgCanonical, h.imgInRange, h.layoutBuilt, h.kindsBounded, h.causeLegal, h.latchLow⟩

/-- The response of a `WRF` is that of its first check that fails (R81, R138). -/
theorem exec_wrf_answers (w off : Nat) (src : SourcePattern) (he : s.status.err = false) :
    ∃ t, exec (.wrf w off src) s = .next t ∧ t.responses = s.responses ++
      [if w = 0 ∨ 40 < w then .fault .width else if 8 * s.layout.bufLen < off + w then .fault .bounds else .ok] := by
  split
  · rename_i hwidth
    exact ⟨_, exec_wrf_of_illegal_width off src he hwidth, rfl⟩
  · split
    · rename_i hwidth hbounds
      exact ⟨_, exec_wrf_of_out_of_bounds src he (by omega) (by omega) hbounds, rfl⟩
    · rename_i hwidth hbounds
      obtain ⟨u, hu, hexec⟩ := exec_wrf_of_accepted src (s := s) (w := w) (off := off)
        ⟨he, by omega, by omega, by omega⟩
      exact ⟨_, hexec, by rw [respond_responses, (fieldWrite_imageStep hu).responses]⟩

/-- The response of a `SET` is that of its one check (R101, R138). -/
theorem exec_set_answers (idx : Nat) (val : Byte) (h : EngineInv s) (he : s.status.err = false) :
    ∃ t, exec (.set idx val) s = .next t ∧
      t.responses = s.responses ++ [if s.layout.n ≤ idx then .fault .index else .ok] := by
  split
  · rename_i hindex
    exact ⟨_, exec_set_of_n_le val he hindex, rfl⟩
  · rename_i hindex
    obtain ⟨kind, off, hc⟩ := h.exists_componentAt (idx := idx) (by omega)
    obtain ⟨u, hu, hexec⟩ := exec_set_completes val h he hc
    exact ⟨_, hexec, by rw [respond_responses, (fieldWrite_imageStep hu).responses]⟩

end Answer

/-- Settles O7: a halted engine does not look at the word, and a step that writes `CAUSE` writes 0 or a fault's code. -/
theorem haltedEngineAnswersHalted : Obligations.HaltedEngineAnswersHalted := by
  unfold Obligations.HaltedEngineAnswersHalted
  refine ⟨fun s cw rest => step_of_halted, fun s t hcause h => ?_⟩
  rcases step_status_cases h with hkeep | hclear | ⟨c, hfault⟩
  · rwa [hkeep]
  · rw [hclear]
    decide
  · rw [hfault]
    exact c.code_ne_halted

/-- Settles O8: the halt is looked at first, then the word is decoded, then the command's own checks are made in their order. -/
theorem responsePriority : Obligations.ResponsePriority := by
  unfold Obligations.ResponsePriority
  intro s cw rest h hp
  cases he : s.status.err with
  | true => exact ⟨_, step_of_halted hp he, rfl⟩
  | false =>
    cases hd : decode cw with
    | error e => exact ⟨_, step_of_decode_error hp he hd, rfl⟩
    | ok i =>
      rw [step_of_decode_ok hp he hd]
      cases i with
      | wrf w off src => exact exec_wrf_answers (s := { s with port := rest }) w off src he
      | set idx val => exact exec_set_answers idx val (h.with_port rest) he
      | upd => exact ⟨_, exec_upd_of_running (s := { s with port := rest }) he, rfl⟩

/-- Settles O9: of all that a step on a word can do, only a fault answers one, and it is the one it records. -/
theorem faultsArePreciseAndRecorded : Obligations.FaultsArePreciseAndRecorded := by
  unfold Obligations.FaultsArePreciseAndRecorded
  intro s t cw rest c hp he h hanswer
  rcases step_cases_of_running hp he h with ⟨c', rfl⟩ | ⟨u, -, hresponses, rfl⟩
  · have hc : c' = c := by simpa using hanswer
    subst hc
    cases c' <;> rfl
  · simp [hresponses] at hanswer

/-- Settles O10: a halted engine's step is idle, an `E_HALTED`, or a reset, whose state has the empty image. -/
theorem onlyResetEndsHalt : Obligations.OnlyResetEndsHalt := by
  unfold Obligations.OnlyResetEndsHalt
  intro s t hhalt h
  rcases step_cases_by_action h with ⟨-, rfl⟩ | ⟨cfg, rest, hp, rfl⟩ | ⟨cw, rest, hp⟩
  · exact .inl ⟨rfl, rfl, rfl, rfl⟩
  · exact .inr ⟨cfg, rest, hp, rfl, fun a ha => memRead_resetWith ha⟩
  · rw [step_of_halted hp hhalt] at h
    cases h
    exact .inl ⟨rfl, rfl, rfl, rfl⟩

end Sys2Proof.Machine
end

section
/-! SUPPORT. Decoder and encoder undo each other (spec/30_encoding.md R52 to R58, R63): a source pattern is its 40-bit number, and a
word that decodes is read off the cases of its opcode. -/

namespace Sys2Proof

section Decode
variable {cw : Word} {i : Instr}

/-- R56: the five source bytes of a word are its low 40 bits, most significant first. -/
theorem sourceNumber_sourceOf (cw : Word) : sourceNumber (sourceOf cw) = cw.toNat % 2 ^ 40 := by
  simp only [sourceNumber, sourceOf, Vector.getElem_mk, List.getElem_toArray, List.getElem_cons_zero,
    List.getElem_cons_succ, byteField_toNat]
  omega

/-- A source pattern is determined by its number. -/
theorem sourceNumber_injective : Function.Injective sourceNumber := by
  intro src src' h
  unfold sourceNumber at h
  have h₀ := src[0].isLt; have h₁ := src[1].isLt; have h₂ := src[2].isLt; have h₃ := src[3].isLt; have h₄ := src[4].isLt
  have h₀' := src'[0].isLt; have h₁' := src'[1].isLt; have h₂' := src'[2].isLt; have h₃' := src'[3].isLt
  have h₄' := src'[4].isLt
  refine Vector.ext fun i hi => BitVec.eq_of_toNat_eq ?_
  interval_cases i <;> omega

theorem bitField_lt (cw : Word) (hi lo : Nat) : bitField cw hi lo < 2 ^ (hi + 1 - lo) := by
  rw [bitField_eq]
  exact Nat.mod_lt _ (by positivity)

/-- Every word that decodes: its opcode is 1, or 2 or 3 with reserved bits 0 (R52 to R54, R57). -/
theorem decode_eq_ok_cases (h : decode cw = .ok i) :
    (cw.toNat / 2 ^ 60 = 1 ∧ i = .wrf (bitField cw 59 54) (bitField cw 53 40) (sourceOf cw)) ∨
    (cw.toNat / 2 ^ 60 = 2 ∧ cw.toNat % 2 ^ 44 = 0 ∧ i = .set (bitField cw 59 52) (byteField cw 44)) ∨
    (cw.toNat / 2 ^ 60 = 3 ∧ cw.toNat % 2 ^ 60 = 0 ∧ i = .upd) := by
  have hop : cw.toNat / 2 ^ 60 = 1 ∨ cw.toNat / 2 ^ 60 = 2 ∨ cw.toNat / 2 ^ 60 = 3 ∨
      (cw.toNat / 2 ^ 60 = 0 ∨ 4 ≤ cw.toNat / 2 ^ 60) := by omega
  rcases hop with hwrf | hset | hupd | hundefined
  · rw [decode_of_opcode_one hwrf] at h
    cases h
    exact .inl ⟨hwrf, rfl⟩
  · rw [decode_of_opcode_two hset, bitField_low_eq] at h
    split at h
    · rename_i hres
      cases h
      exact .inr (.inl ⟨hset, hres, rfl⟩)
    · cases h
  · rw [decode_of_opcode_three hupd, bitField_low_eq] at h
    split at h
    · rename_i hres
      cases h
      exact .inr (.inr ⟨hupd, hres, rfl⟩)
    · cases h
  · rw [decode_of_opcode_undefined hundefined] at h
    cases h

theorem decode_encode_wrf {width off : Nat} {src : SourcePattern} (h : (Instr.wrf width off src).wellFormed = true) :
    decode (encode (.wrf width off src)) = .ok (.wrf width off src) := by
  have hnum := encode_wrf_toNat h
  have hsrc := sourceNumber_lt src
  simp only [Instr.wellFormed, Config.widthBits, Config.offBits, Bool.and_eq_true, decide_eq_true_eq] at h
  obtain ⟨hwidth, hoff⟩ := h
  have hsource : sourceOf (encode (.wrf width off src)) = src :=
    sourceNumber_injective (by rw [sourceNumber_sourceOf, hnum]; omega)
  have hwidthField : bitField (encode (.wrf width off src)) 59 54 = width := by rw [bitField_eq, hnum]; omega
  have hoffField : bitField (encode (.wrf width off src)) 53 40 = off := by rw [bitField_eq, hnum]; omega
  rw [decode_of_opcode_one (by omega), hsource, hwidthField, hoffField]

theorem decode_encode_set {idx : Nat} {val : Byte} (h : (Instr.set idx val).wellFormed = true) :
    decode (encode (.set idx val)) = .ok (.set idx val) := by
  have hnum := encode_set_toNat h
  have hval := val.isLt
  simp only [Instr.wellFormed, Config.idxBits, decide_eq_true_eq] at h
  have hreserved : bitField (encode (.set idx val)) 43 0 = 0 := by rw [bitField_low_eq, hnum]; omega
  have hidxField : bitField (encode (.set idx val)) 59 52 = idx := by rw [bitField_eq, hnum]; omega
  have hvalField : byteField (encode (.set idx val)) 44 = val :=
    BitVec.eq_of_toNat_eq (by rw [byteField_toNat, hnum]; omega)
  rw [decode_of_opcode_two (by omega), if_pos hreserved, hidxField, hvalField]

end Decode

/-- Settles O1: the encoded word's number is the sum of its shifted fields, none of which reaches the next, so each reads back. -/
theorem decodeOfEncodeIsTheCommand : Obligations.DecodeOfEncodeIsTheCommand := by
  unfold Obligations.DecodeOfEncodeIsTheCommand
  intro i h
  cases i with
  | wrf width off src => exact decode_encode_wrf h
  | set idx val => exact decode_encode_set h
  | upd => decide

/-- Settles O2: the fields a decoded command was read from, put back in their places, make up the whole word; the reserved bits are
0. -/
theorem encodeOfDecodeIsTheWord : Obligations.EncodeOfDecodeIsTheWord := by
  unfold Obligations.EncodeOfDecodeIsTheWord
  intro cw i h
  rcases decode_eq_ok_cases h with ⟨hop, rfl⟩ | ⟨hop, hres, rfl⟩ | ⟨hop, hres, rfl⟩
  · have hwf : (Instr.wrf (bitField cw 59 54) (bitField cw 53 40) (sourceOf cw)).wellFormed = true := by
      simp only [Instr.wellFormed, Bool.and_eq_true, decide_eq_true_eq]
      exact ⟨bitField_lt cw 59 54, bitField_lt cw 53 40⟩
    refine ⟨hwf, BitVec.eq_of_toNat_eq ?_⟩
    rw [encode_wrf_toNat hwf, sourceNumber_sourceOf, bitField_eq, bitField_eq]
    omega
  · have hwf : (Instr.set (bitField cw 59 52) (byteField cw 44)).wellFormed = true :=
      decide_eq_true (bitField_lt cw 59 52)
    refine ⟨hwf, BitVec.eq_of_toNat_eq ?_⟩
    rw [encode_set_toNat hwf, byteField_toNat, bitField_eq]
    omega
  · refine ⟨rfl, BitVec.eq_of_toNat_eq ?_⟩
    have hnum : (encode .upd).toNat = 3 * 2 ^ 60 := rfl
    omega

/-- Settles O4: the decoder, evaluated on each word. -/
theorem listedWordsDecode : Obligations.ListedWordsDecode := by
  unfold Obligations.ListedWordsDecode
  decide

end Sys2Proof
end

section
/-! SUPPORT. The closed form of the Field Writer (spec/41_field_writer.md R89): setting bits one by one changes the image only, and
gives it the bits the byte loop gives it, so on a canonical image the two are one state. -/

namespace Sys2Proof.Machine

theorem byteWithBit_getLsbD {i j : Nat} (v : Byte) (b : Bool) (hi : i < 8) :
    (byteWithBit v j b).getLsbD i = if i = j then b else v.getLsbD i := by
  by_cases hij : i = j
  · subst hij
    cases b <;> simp [byteWithBit, hi]
  · cases b <;> simp [byteWithBit, hi, hij]

/-- Bit `p` is set and no other (R31). -/
theorem getBit_setImageBit (p q : Nat) (b : Bool) (s : State) :
    getBit q (setImageBit p b s) = if q = p then b else getBit q s := by
  by_cases hbyte : q / 8 = p / 8
  · have hplace : 7 - q % 8 = 7 - p % 8 ↔ q = p := by omega
    rw [getBit, setImageBit_img, hbyte, Memory.read_write_same, byteWithBit_getLsbD _ _ (by omega), ← hbyte, getBit]
    simp only [hplace]
  · have hne : q ≠ p := fun h => hbyte (by rw [h])
    rw [getBit, setImageBit_img, Memory.read_write_other _ _ hbyte, if_neg hne, getBit]

theorem setImageBit_imageStep {p : Nat} {s : State} (b : Bool) (h : p / 8 < s.layout.bufLen) : ImageStep s (setImageBit p b s) := by
  refine ⟨rfl, Memory.wf_write _ _, fun hrange c hc => ?_⟩
  rcases Memory.mem_write hc with haddress | hc
  · omega
  · exact hrange c hc

theorem fieldWriteBits_imageStep {off n : Nat} {s : State} (src : SourcePattern) (h : off + n ≤ 8 * s.layout.bufLen) :
    ImageStep s (fieldWriteBits off src n s) := by
  induction n with
  | zero => exact .refl s
  | succ n ih =>
    have hfirst := ih (by omega)
    exact hfirst.trans (setImageBit_imageStep _ (by rw [hfirst.layout]; omega))

theorem getBit_fieldWriteBits (off n p : Nat) (src : SourcePattern) (s : State) :
    getBit p (fieldWriteBits off src n s) = if InField off n p then srcBit src (p - off) else getBit p s := by
  induction n with
  | zero => rw [if_neg (by omega), fieldWriteBits]
  | succ n ih =>
    rw [fieldWriteBits, getBit_setImageBit, ih]
    by_cases hlast : p = off + n
    · subst hlast
      rw [if_pos rfl, if_pos (by omega), Nat.add_sub_cancel_left]
    · have hfield : InField off n p ↔ InField off (n + 1) p := by omega
      simp only [if_neg hlast, hfield]

/-- Two changes of one canonical image that give it the same bits give the same state. -/
theorem ImageStep.eq_of_getBit {s t u : State} (h : ImageStep s t) (h' : ImageStep s u) (hs : Memory.wf s.img)
    (hbits : ∀ p, getBit p t = getBit p u) : t = u := by
  have himg : t.img = u.img := img_eq_of_getBit (h'.wf hs) (h.wf hs) hbits
  rw [h.frame, h'.frame, himg]

/-- Settles O21: both write the pattern's bits into the field, change the image only, and keep it canonical. -/
theorem fieldWriterLoopEqualsClosedForm : Obligations.FieldWriterLoopEqualsClosedForm := by
  unfold Obligations.FieldWriterLoopEqualsClosedForm
  intro s w off src hs _ hw hend
  obtain ⟨t, ht⟩ := fieldWrite_total src hw hend
  have heq : t = fieldWriteBits off src w s :=
    (fieldWrite_imageStep ht).eq_of_getBit (fieldWriteBits_imageStep src hend) hs fun p => by
      rw [fieldWrite_getBit ht, getBit_fieldWriteBits]
  rw [ht, heq]

/-- Settles O27: the decoder and the Field Writer, evaluated. -/
theorem workedFieldWrite : Obligations.WorkedFieldWrite := by
  unfold Obligations.WorkedFieldWrite
  exact ⟨by decide, _, rfl, by decide, rfl⟩

end Sys2Proof.Machine
end

section
/-! SUPPORT. The patterns of the kinds that have a table (spec/42_set_encoder.md R103 to R105), bit by bit, and what a `SET` of such a
component writes. -/

namespace Sys2Proof.Machine

section Encode
variable {q : Nat}

theorem srcBit_of_lt_eight (src : SourcePattern) (hq : q < 8) : srcBit src q = src[0].getLsbD (7 - q) := by
  have hbyte : q / 8 = 0 := by omega
  have hplace : q % 8 = q := by omega
  simp [srcBit, hbyte, hplace]

theorem srcBit_of_lt_sixteen (src : SourcePattern) (hq : 8 ≤ q) (hq' : q < 16) :
    srcBit src q = src[1].getLsbD (15 - q) := by
  have hbyte : q / 8 = 1 := by omega
  have hplace : 7 - q % 8 = 15 - q := by omega
  simp [srcBit, hbyte, hplace]

/-- R103: the leading byte of the pattern is the table's. -/
theorem srcBit_encodeValue_sevenSegment (p : ParameterSet) (val : Byte) (hq : q < 8) :
    srcBit (encodeValue p .sevenSegment val) q = (seg7 p val).getLsbD (7 - q) :=
  srcBit_of_lt_eight _ hq

/-- R104: the leading byte of the pattern is the complement of the table's. -/
theorem srcBit_encodeValue_sevenSegmentInverted (p : ParameterSet) (val : Byte) (hq : q < 8) :
    srcBit (encodeValue p .sevenSegmentInverted val) q = !(seg7 p val).getLsbD (7 - q) := by
  have hplace : 7 - q < 8 := by omega
  rw [srcBit_of_lt_eight _ hq]
  simp [encodeValue, hplace]

/-- R105: the two leading bytes of the pattern are the table's 16 bits, most significant first. -/
theorem srcBit_encodeValue_alpha16 (p : ParameterSet) (val : Byte) (hq : q < 16) :
    srcBit (encodeValue p .alpha16 val) q = (seg16 p val).getLsbD (15 - q) := by
  by_cases hfirst : q < 8
  · have hbit : 8 + (7 - q) = 15 - q := by omega
    have hplace : 7 - q < 8 := by omega
    rw [srcBit_of_lt_eight _ hfirst]
    simp [encodeValue, hbit, hplace]
  · have hplace : 15 - q < 8 := by omega
    rw [srcBit_of_lt_sixteen _ (by omega) hq]
    simp [encodeValue, hplace]

end Encode

/-- R108, for a kind whose width and pattern bits are known: a `SET` writes those bits and no others. -/
theorem exec_set_writes_bits {s : State} {idx off w : Nat} {val : Byte} {kind : ComponentKind} {bits : Nat → Bool}
    (h : EngineInv s) (he : s.status.err = false) (hc : ComponentAt s idx kind off)
    (hw : kindWidth s.alphaWidth kind = w)
    (hbits : ∀ q, q < w → srcBit (encodeValue s.parameters kind val) q = bits q) :
    ∃ t, exec (.set idx val) s = .next t ∧ (∀ q, q < w → getBit (off + q) t = bits q) ∧
      ∀ p, ¬ InField off w p → getBit p t = getBit p s := by
  subst hw
  obtain ⟨-, -, -, t, ht, hwritten, -, -⟩ :=
    setWritesEncodedValue s idx val kind off h he (h.componentAt_lt_n hc) hc
  refine ⟨t, ht, fun q hq => ?_, fun p hp => ?_⟩
  · rw [hwritten, if_pos (by omega), Nat.add_sub_cancel_left, hbits q hq]
  · rw [hwritten, if_neg hp]

/-- Settles O32: the field of a 7-segment component is the 8 leading bits of its pattern. -/
theorem setSevenSegmentWritesTableByte : Obligations.SetSevenSegmentWritesTableByte := by
  unfold Obligations.SetSevenSegmentWritesTableByte
  refine ⟨fun _ => rfl, fun p val hval hknown => ?_, fun _ _ => rfl, fun _ _ => rfl,
    fun s idx off val h he _ => ⟨fun hc => ?_, fun hc => ?_⟩⟩
  · simp [seg7, charEight, hval, hknown]
  · exact exec_set_writes_bits h he hc rfl fun _ => srcBit_encodeValue_sevenSegment _ _
  · exact exec_set_writes_bits h he hc rfl fun _ => srcBit_encodeValue_sevenSegmentInverted _ _

/-- Settles O33: the field of an alphanumeric component is the 16 or 14 leading bits of its pattern. -/
theorem setAlphaWritesLeadingBits : Obligations.SetAlphaWritesLeadingBits := by
  unfold Obligations.SetAlphaWritesLeadingBits
  refine ⟨fun p val hknown hfallback => ?_, fun s idx off val h he _ hc => ?_⟩
  · simp [seg16, hknown, hfallback]
  · have hwidth : alphaBits s.alphaWidth ≤ 16 := by cases s.alphaWidth <;> decide
    exact exec_set_writes_bits h he hc rfl fun q (hq : q < alphaBits s.alphaWidth) =>
      srcBit_encodeValue_alpha16 _ _ (by omega)

end Sys2Proof.Machine
end

section
/-! SUPPORT. Everything one command word can do to the state, as a relation (`CommandEffect`), and everything a step can do; the
frames of a command and the step invariants are case analyses over it. -/

namespace Sys2Proof.Machine

/-- The state after an `UPD` of a running engine (spec/43_serializer.md R119, R120). -/
def transmitted (s : State) : State :=
  { s with wire := s.wire ++ updBurst s, latch := false, responses := s.responses ++ [.ok] }

/-- All that one command word can do (spec/60_exceptions.md R138): the four ways a command ends. -/
inductive CommandEffect (s : State) : State → Prop where
  /-- A halted engine answers `E_HALTED` (R136). -/
  | halted (he : s.status.err = true) : CommandEffect s (respondHalted s)
  /-- A running engine raises a fault (R139). -/
  | fault (he : s.status.err = false) (c : FaultCause) : CommandEffect s (raiseFault c s)
  /-- A running engine writes the image and answers `OK` (spec/41_field_writer.md R89). -/
  | write (he : s.status.err = false) {u : State} (hu : ImageStep s u) : CommandEffect s (respond .ok u)
  /-- A running engine sends the image and answers `OK`. -/
  | transmit (he : s.status.err = false) : CommandEffect s (transmitted s)

/-- R136: a halted engine sends nothing. -/
theorem exec_upd_of_halted {s : State} (he : s.status.err = true) : exec .upd s = .next (respondHalted s) := by
  have hupd : exec .upd s = execUpd s := rfl
  rw [hupd, execUpd_eq, if_pos he]

/-- A command that answers has one of the four effects. -/
theorem exec_effect {i : Instr} {s t : State} (h : exec i s = .next t) : CommandEffect s t := by
  cases i with
  | wrf w off src =>
    rcases execWrf_cases h with ⟨he, rfl⟩ | ⟨he, -, rfl⟩ | ⟨he, -, -, rfl⟩ | ⟨he, -, -, u, hu, rfl⟩
    · exact .halted he
    · exact .fault he .width
    · exact .fault he .bounds
    · exact .write he (fieldWrite_imageStep hu)
  | set idx val =>
    rcases execSet_cases h with ⟨he, rfl⟩ | ⟨he, -, rfl⟩ | ⟨he, -, _, _, u, -, -, hu, rfl⟩
    · exact .halted he
    · exact .fault he .index
    · exact .write he (fieldWrite_imageStep hu)
  | upd =>
    cases he : s.status.err with
    | true =>
      rw [exec_upd_of_halted he] at h
      cases h
      exact .halted he
    | false =>
      rw [exec_upd_of_running he] at h
      cases h
      exact .transmit he

/-- A step on a word takes the word off the port and has the effect of one command, illegal words included (R135). -/
theorem step_effect {s t : State} {cw : Word} {rest : List HostAction} (hp : s.port = .command cw :: rest)
    (h : step s = .next t) : CommandEffect { s with port := rest } t := by
  cases he : s.status.err with
  | true =>
    rw [step_of_halted hp he] at h
    cases h
    exact .halted he
  | false =>
    cases hd : decode cw with
    | error e =>
      rw [step_of_decode_error hp he hd] at h
      cases h
      exact .fault (s := { s with port := rest }) he .illegal
    | ok i =>
      rw [step_of_decode_ok hp he hd] at h
      exact exec_effect h

namespace CommandEffect
variable {s t : State}

/-- No command writes the layout table, the configuration or the host's pending actions. -/
theorem layout (h : CommandEffect s t) : t.layout = s.layout := by
  cases h with
  | halted | fault | transmit => rfl
  | write _ hu => exact hu.onlyImageChanged.layout

theorem alphaWidth (h : CommandEffect s t) : t.alphaWidth = s.alphaWidth := by
  cases h with
  | halted | fault | transmit => rfl
  | write _ hu => exact hu.onlyImageChanged.alphaWidth

theorem parameters (h : CommandEffect s t) : t.parameters = s.parameters := by
  cases h with
  | halted | fault | transmit => rfl
  | write _ hu => exact hu.onlyImageChanged.parameters

theorem port (h : CommandEffect s t) : t.port = s.port := by
  cases h with
  | halted | fault | transmit => rfl
  | write _ hu => exact hu.onlyImageChanged.port

/-- A command sends one whole transmission or nothing (R17, R119). -/
theorem wire (h : CommandEffect s t) : t.wire = s.wire ∨ t.wire = s.wire ++ updBurst s := by
  cases h with
  | halted | fault => exact .inl rfl
  | write _ hu => exact .inl hu.onlyImageChanged.wire
  | transmit => exact .inr rfl

theorem latch_low (h : CommandEffect s t) (hs : s.latch = false) : t.latch = false := by
  cases h with
  | halted | fault => exact hs
  | write _ hu => exact hu.onlyImageChanged.latch.trans hs
  | transmit => rfl

end CommandEffect

/-- Settles O50: none of the four effects of a command touches them. -/
theorem commandsKeepLayout : Obligations.CommandsKeepLayout := by
  unfold Obligations.CommandsKeepLayout
  intro i s t h
  have heffect := exec_effect h
  exact ⟨heffect.layout, heffect.alphaWidth, heffect.parameters, heffect.port⟩

/-- Settles O51: an idle step appends nothing, a command one transmission at most. -/
theorem wireOnlyGrows : Obligations.WireOnlyGrows := by
  unfold Obligations.WireOnlyGrows
  intro s t h hreset
  rcases step_cases_by_action h with ⟨-, rfl⟩ | ⟨cfg, rest, hp, -⟩ | ⟨cw, rest, hp⟩
  · exact ⟨⟨[], by simp⟩, id⟩
  · exact absurd hp (hreset cfg rest)
  · have heffect := step_effect hp h
    refine ⟨?_, heffect.latch_low⟩
    rcases heffect.wire with hwire | hwire
    · exact ⟨[], by simp [hwire]⟩
    · exact ⟨_, hwire⟩

/-- Settles O5: the word is looked at only after the halt, and it decodes. -/
theorem stepRunsDecodedCommand : Obligations.StepRunsDecodedCommand := by
  unfold Obligations.StepRunsDecodedCommand
  exact fun _ _ _ _ => step_of_decode_ok

/-- Settles O6. -/
theorem idleStepChangesNothing : Obligations.IdleStepChangesNothing := by
  unfold Obligations.IdleStepChangesNothing
  intro s hp
  simp only [step, takeAction, hp]

end Sys2Proof.Machine
end

section
/-! SUPPORT. The invariant: a reset establishes it, every step keeps it, and from a state that meets it a step always answers, but for
the one reset that is refused. -/

namespace Sys2Proof.Machine

section Reset
variable {s : State} {cfg : Configuration} {rest : List HostAction}

theorem step_reset (hp : s.port = .reset cfg :: rest) : step s = applyReset cfg { s with port := rest } := by
  simp only [step, takeAction, hp]

/-- R150: an admitted reset, in any state. -/
theorem step_reset_of_le (hp : s.port = .reset cfg :: rest) (hk : cfg.kinds.length ≤ 256) :
    step s = .next { State.resetWith cfg with port := rest } := by
  rw [step_reset hp, applyReset, if_pos hk]

theorem engineInv_resetWith (hk : cfg.kinds.length ≤ 256) : EngineInv (State.resetWith cfg) where
  imgCanonical := Memory.wf_nil
  imgInRange := by simp
  layoutBuilt := rfl
  kindsBounded := hk
  causeLegal := rfl
  latchLow := rfl

end Reset

section Invariant
variable {s t : State}

/-- The invariant reads the image, the layout with its width option, `STATUS` and the latch; each effect of a command keeps what it
says of them. -/
theorem CommandEffect.engineInv (heffect : CommandEffect s t) (h : EngineInv s) : EngineInv t := by
  obtain ⟨hcanonical, hrange, hbuilt, hbounded, hcause, hlatch⟩ := h
  cases heffect with
  | halted => exact ⟨hcanonical, hrange, hbuilt, hbounded, hcause, hlatch⟩
  | fault _ c => exact ⟨hcanonical, hrange, hbuilt, hbounded, ⟨c, rfl⟩, hlatch⟩
  | transmit => exact ⟨hcanonical, hrange, hbuilt, hbounded, hcause, rfl⟩
  | write _ hu =>
    obtain ⟨hlayout, hstatus, -, hlatch', halpha, -, -⟩ := hu.onlyImageChanged
    refine ⟨hu.wf hcanonical, ?_, ?_, ?_, ?_, hlatch'.trans hlatch⟩
    · simpa only [respond_img, respond_layout, hlayout] using hu.range hrange
    · simpa only [respond_layout, respond_alphaWidth, hlayout, halpha] using hbuilt
    · simpa only [respond_layout, hlayout] using hbounded
    · simpa only [respond_status, hstatus] using hcause

theorem EngineInv.step (h : EngineInv s) (hstep : step s = .next t) : EngineInv t := by
  rcases step_cases_by_action hstep with ⟨-, rfl⟩ | ⟨cfg, rest, hp, rfl⟩ | ⟨cw, rest, hp⟩
  · exact h
  · rw [step_reset hp] at hstep
    exact (engineInv_resetWith (applyReset_eq_next hstep).1).with_port rest
  · exact (step_effect hp hstep).engineInv (h.with_port rest)

/-- From the invariant every word is answered, with one response (R138, R161). -/
theorem EngineInv.step_command_answers {cw : Word} {rest : List HostAction} (h : EngineInv s)
    (hp : s.port = .command cw :: rest) :
    ∃ t r, Machine.step s = .next t ∧ t.responses = s.responses ++ [r] ∧ t.port = rest := by
  obtain ⟨t, ht, hresponses⟩ := responsePriority s cw rest h hp
  exact ⟨t, _, ht, hresponses, (step_effect hp ht).port⟩

/-- From the invariant a step stops at a reset with too many kinds only (R34, R75, R108). -/
theorem EngineInv.step_outcome (h : EngineInv s) :
    (∃ t, Machine.step s = .next t) ∨
    ∃ cfg rest, s.port = .reset cfg :: rest ∧ 256 < cfg.kinds.length ∧
      Machine.step s = .refused (.tooManyKinds cfg.kinds.length) := by
  match hp : s.port with
  | [] => exact .inl ⟨s, idleStepChangesNothing s hp⟩
  | .command cw :: rest =>
    obtain ⟨t, -, ht, -, -⟩ := h.step_command_answers hp
    exact .inl ⟨t, ht⟩
  | .reset cfg :: rest =>
    by_cases hk : cfg.kinds.length ≤ 256
    · exact .inl ⟨_, step_reset_of_le hp hk⟩
    · have hk : 256 < cfg.kinds.length := by omega
      exact .inr ⟨cfg, rest, rfl, hk, by rw [step_reset hp, applyReset_refused _ hk]⟩

end Invariant

/-- Settles O12: the next action is the reset, and `applyReset` looks at the kind count alone. -/
theorem hostResetAtAnyTime : Obligations.HostResetAtAnyTime := by
  unfold Obligations.HostResetAtAnyTime
  intro s cfg rest hp
  exact ⟨step_reset_of_le hp, fun hk => by rw [step_reset hp, applyReset_refused _ hk]⟩

/-- Settles O43: the configuration of `State.reset` has three kinds. -/
theorem resetMeetsInvariant : Obligations.ResetMeetsInvariant := by
  unfold Obligations.ResetMeetsInvariant
  exact ⟨fun _ => engineInv_resetWith, engineInv_resetWith (by decide)⟩

/-- Settles O44: an idle step keeps the state, an admitted reset establishes the invariant, and each effect of a command keeps it. -/
theorem stepKeepsInvariant : Obligations.StepKeepsInvariant := by
  unfold Obligations.StepKeepsInvariant
  exact fun _ _ => EngineInv.step

/-- Settles O45: a step answers a state or is the one refusal. -/
theorem invariantStatesNeverStop : Obligations.InvariantStatesNeverStop := by
  unfold Obligations.InvariantStatesNeverStop
  intro s h
  rcases h.step_outcome with ⟨t, ht⟩ | ⟨cfg, rest, hp, hk, hrefused⟩
  · rw [ht]
    exact ⟨nofun, nofun⟩
  · rw [hrefused]
    refine ⟨nofun, fun _ hr => ?_⟩
    cases hr
    exact ⟨cfg, rest, hp, hk, rfl⟩

end Sys2Proof.Machine
end

section
/-! SUPPORT. The traces: `WIRE` stays a sequence of whole transmissions and the responses agree with `STATUS` (spec/10_state.md R17,
spec/70_reset_and_hazards.md R161), and what follows for a run over a list of words. -/

namespace Sys2Proof.Machine

theorem WireFramed.nil (n : Nat) : WireFramed n [] := ⟨[], by simp, rfl⟩

/-- One more whole transmission. -/
theorem WireFramed.append {n : Nat} {w : List WireEvent} {bits : List Bool} (h : WireFramed n w) (hbits : bits.length = n) :
    WireFramed n (w ++ (bits.map WireEvent.shift ++ [.latchHigh, .latchLow])) := by
  obtain ⟨frames, hlength, rfl⟩ := h
  refine ⟨frames ++ [bits], fun f hf => ?_, by simp⟩
  rcases List.mem_append.mp hf with hf | hf
  · exact hlength f hf
  · rw [List.mem_singleton.mp hf, hbits]

section Responses
variable {s t : State}

theorem responsesConsistent_of_running (he : s.status.err = false) :
    ResponsesConsistent s ↔ ∀ r ∈ s.responses, r = .ok := by
  simp only [ResponsesConsistent, he, Bool.false_eq_true, if_false]

theorem responsesConsistent_of_halted (he : s.status.err = true) :
    ResponsesConsistent s ↔ ∃ (k m : Nat) (c : FaultCause), s.status.cause = c.code ∧
      s.responses = List.replicate k .ok ++ .fault c :: List.replicate m .halted := by
  simp only [ResponsesConsistent, he, if_true]

theorem CommandEffect.responsesConsistent (heffect : CommandEffect s t) (h : ResponsesConsistent s) :
    ResponsesConsistent t := by
  cases heffect with
  | halted he =>
    obtain ⟨k, m, c, hcause, hresponses⟩ := (responsesConsistent_of_halted he).mp h
    refine (responsesConsistent_of_halted (s := respondHalted s) he).mpr ⟨k, m + 1, c, hcause, ?_⟩
    simp [hresponses, List.replicate_succ']
  | fault he c =>
    have hok : s.responses = List.replicate s.responses.length .ok :=
      List.eq_replicate_of_mem ((responsesConsistent_of_running he).mp h)
    refine (responsesConsistent_of_halted rfl).mpr ⟨s.responses.length, 0, c, rfl, ?_⟩
    rw [raiseFault_responses, ← hok, List.replicate_zero]
  | write he hu =>
    have hok := (responsesConsistent_of_running he).mp h
    have hstatus := hu.onlyImageChanged.status
    refine (responsesConsistent_of_running (by rw [respond_status, hstatus, he])).mpr ?_
    simpa [hu.responses, or_imp, forall_and] using hok
  | transmit he =>
    have hok := (responsesConsistent_of_running he).mp h
    exact (responsesConsistent_of_running (s := transmitted s) he).mpr (by simpa [transmitted, or_imp, forall_and] using hok)

theorem ResponsesConsistent.step (h : ResponsesConsistent s) (hstep : step s = .next t) : ResponsesConsistent t := by
  rcases step_cases_by_action hstep with ⟨-, rfl⟩ | ⟨cfg, rest, -, rfl⟩ | ⟨cw, rest, hp⟩
  · exact h
  · exact (responsesConsistent_of_running rfl).mpr (by simp)
  · exact (step_effect hp hstep).responsesConsistent h

/-- R161: a run whose responses agree with `STATUS` is good exactly while the engine runs. -/
theorem ResponsesConsistent.goodRun_iff (h : ResponsesConsistent s) : GoodRun s ↔ s.status.err = false := by
  cases he : s.status.err with
  | false => exact iff_of_true ((responsesConsistent_of_running he).mp h) rfl
  | true =>
    obtain ⟨k, m, c, -, hresponses⟩ := (responsesConsistent_of_halted he).mp h
    refine iff_of_false (fun hgood => ?_) (by decide)
    have hfault := hgood (.fault c) (by simp [hresponses])
    cases hfault

end Responses

/-- As many steps as there are words on the port carry them all out (R161, R162). -/
theorem run_answers_every_word {s : State} (h : EngineInv s) (hresponses : ResponsesConsistent s) (honly : OnlyCommands s) :
    ∃ t, Host.Core.run Sys2Proof.core s.port.length s = .next t ∧ t.port = [] ∧ EngineInv t ∧ ResponsesConsistent t ∧
      t.responses.length = s.responses.length + s.port.length := by
  generalize hport : s.port = actions
  induction actions generalizing s with
  | nil => exact ⟨s, rfl, hport, h, hresponses, rfl⟩
  | cons action rest ih =>
    obtain ⟨cw, rfl⟩ := honly action (by simp [hport])
    obtain ⟨s', r, hstep, hanswer, hrest⟩ := h.step_command_answers hport
    have honly' : OnlyCommands s' := fun a ha => honly a (by rw [hport]; exact List.mem_cons_of_mem _ (hrest ▸ ha))
    obtain ⟨t, hrun, hend, hinv, hconsistent, hlength⟩ := ih (h.step hstep) (hresponses.step hstep) honly' hrest
    refine ⟨t, ?_, hend, hinv, hconsistent, ?_⟩
    · rw [List.length_cons]
      exact (core_run_succ Sys2Proof.core rest.length s s' hstep).trans hrun
    · rw [hlength, hanswer, List.length_append, List.length_singleton, List.length_cons]
      omega

/-- Settles O46: a command appends one whole transmission or nothing, a reset empties both traces. -/
theorem stepKeepsTracesConsistent : Obligations.StepKeepsTracesConsistent := by
  unfold Obligations.StepKeepsTracesConsistent
  intro s t hwire hresponses h
  refine ⟨?_, hresponses.step h⟩
  rcases step_cases_by_action h with ⟨-, rfl⟩ | ⟨cfg, rest, -, rfl⟩ | ⟨cw, rest, hp⟩
  · exact hwire
  · exact WireFramed.nil _
  · have heffect := step_effect hp h
    rw [heffect.layout]
    rcases heffect.wire with hsame | hburst
    · rw [hsame]
      exact hwire
    · rw [hburst]
      exact hwire.append (bitsBackwards_length _ _)

/-- Settles O47: both traces are empty. -/
theorem resetTracesConsistent : Obligations.ResetTracesConsistent := by
  unfold Obligations.ResetTracesConsistent
  exact fun cfg => ⟨WireFramed.nil _, (responsesConsistent_of_running rfl).mpr (by simp)⟩

/-- Settles O48: by induction on the words, each answered by one step that keeps the invariant and the responses' shape. -/
theorem runAnswersEveryWord : Obligations.RunAnswersEveryWord := by
  unfold Obligations.RunAnswersEveryWord
  intro s h hresponses honly
  obtain ⟨t, hrun, hend, hinv, hconsistent, hlength⟩ := run_answers_every_word h hresponses honly
  exact ⟨t, hrun, hend, hinv, hlength, hconsistent.goodRun_iff⟩

end Sys2Proof.Machine
end

section
/-! SUPPORT. What becomes of the image: `UPD` keeps it, a reset clears it, pad bits and other bits outside a field stay
(spec/10_state.md R19, R21, R23), and no check of a command reads it. -/

namespace Sys2Proof.Machine

/-- R22: every image bit of a reset state is 0. -/
@[simp] theorem getBit_resetWith (p : Nat) (cfg : Configuration) : getBit p (State.resetWith cfg) = false := by
  simp [getBit]

theorem bitsBackwards_of_clear {s : State} (n : Nat) (h : ∀ p, getBit p s = false) :
    bitsBackwards n s = List.replicate (8 * n) false := by
  simp [bitsBackwards, h]

section Display

theorem shiftedBits_append (w w' : List WireEvent) : shiftedBits (w ++ w') = shiftedBits w ++ shiftedBits w' := by
  induction w with
  | nil => rfl
  | cons e w ih => cases e <;> simp [shiftedBits, ih]

@[simp] theorem shiftedBits_map_shift (bits : List Bool) : shiftedBits (bits.map .shift) = bits := by
  induction bits with
  | nil => rfl
  | cons b bits ih => rw [List.map_cons, shiftedBits, ih]

/-- A pulse at the end of the wire is the most recent one. -/
theorem beforeLastLatch_append_pulse (w : List WireEvent) : beforeLastLatch (w ++ [.latchHigh, .latchLow]) = some w := by
  induction w with
  | nil => rfl
  | cons e w ih => rw [List.cons_append, beforeLastLatch, ih]

/-- R23: a chain as long as the last transmission shows that transmission, whatever was sent before. -/
theorem displayedBits_append_transmission (w : List WireEvent) (bits : List Bool) :
    displayedBits bits.length (w ++ (bits.map .shift ++ [.latchHigh, .latchLow])) = some bits := by
  rw [displayedBits, ← List.append_assoc, beforeLastLatch_append_pulse, Option.map_some, shiftedBits_append,
    shiftedBits_map_shift, List.length_append, Nat.add_sub_cancel, List.drop_left]

end Display

section AnyImage
variable {s t : State} {src : SourcePattern} {r : FieldWriterRegs}

/-- Whether an access goes through depends on its address and mask, not on the image (R34). -/
theorem imgMerge_any_image {a : Nat} {mask v : Byte} (h : imgMerge a mask v s = .ok t) (m : Memory) :
    ∃ m', imgMerge a mask v { s with img := m } = .ok { t with img := m' } := by
  by_cases hmask : mask = 0#8
  · subst hmask
    rw [imgMerge_zero] at h
    cases h
    exact ⟨m, imgMerge_zero _ _ _⟩
  · by_cases ha : a < s.layout.bufLen
    · rw [imgMerge_of_lt v hmask ha] at h
      cases h
      exact ⟨_, imgMerge_of_lt (s := { s with img := m }) v hmask ha⟩
    · rw [imgMerge_of_ge v hmask (by omega)] at h
      cases h

theorem spillMerge_any_image {mask v : Byte} (h : spillMerge r mask v s = .ok t) (m : Memory) :
    ∃ m', spillMerge r mask v { s with img := m } = .ok { t with img := m' } := by
  unfold spillMerge at h ⊢
  split at h
  · rename_i hshift
    cases h
    exact ⟨m, if_pos hshift⟩
  · rename_i hshift
    rw [if_neg hshift]
    exact imgMerge_any_image h m

theorem fieldWriteIteration_any_image {width : Nat} (h : fieldWriteIteration width src r s = .ok t) (m : Memory) :
    ∃ m', fieldWriteIteration width src r { s with img := m } = .ok { t with img := m' } := by
  obtain ⟨v, hv, h⟩ := except_bind_eq_ok.mp h
  obtain ⟨s₁, h₁, h₂⟩ := except_bind_eq_ok.mp h
  obtain ⟨m₁, h₁'⟩ := imgMerge_any_image h₁ m
  obtain ⟨m₂, h₂'⟩ := spillMerge_any_image h₂ m₁
  exact ⟨m₂, except_bind_eq_ok.mpr ⟨v, hv, except_bind_eq_ok.mpr ⟨_, h₁', h₂'⟩⟩⟩

theorem fieldWriteLoop_any_image {width n : Nat} (h : fieldWriteLoop width src n r s = .ok t) (m : Memory) :
    ∃ m', fieldWriteLoop width src n r { s with img := m } = .ok { t with img := m' } := by
  induction n generalizing r s m with
  | zero =>
    cases h
    exact ⟨m, rfl⟩
  | succ n ih =>
    obtain ⟨s₁, h₁, h₂⟩ := except_bind_eq_ok.mp h
    obtain ⟨m₁, h₁'⟩ := fieldWriteIteration_any_image h₁ m
    obtain ⟨m₂, h₂'⟩ := ih h₂ m₁
    exact ⟨m₂, except_bind_eq_ok.mpr ⟨_, h₁', h₂'⟩⟩

/-- A field write that answers does so on every image. -/
theorem fieldWrite_any_image {off width : Nat} (h : fieldWrite off width src s = .ok t) (m : Memory) :
    ∃ m', fieldWrite off width src { s with img := m } = .ok { t with img := m' } :=
  fieldWriteLoop_any_image h m

theorem exec_wrf_any_image {w off : Nat} (h : exec (.wrf w off src) s = .next t) (m : Memory) :
    ∃ m', exec (.wrf w off src) { s with img := m } = .next { t with img := m' } := by
  rcases execWrf_cases h with ⟨he, rfl⟩ | ⟨he, hw, rfl⟩ | ⟨he, hw, hb, rfl⟩ | ⟨he, hw, hb, u, hu, rfl⟩
  · exact ⟨m, exec_wrf_of_halted (s := { s with img := m }) w off src he⟩
  · exact ⟨m, exec_wrf_of_illegal_width (s := { s with img := m }) off src he hw⟩
  · exact ⟨m, exec_wrf_of_out_of_bounds (s := { s with img := m }) src he (by omega) (by omega) hb⟩
  · obtain ⟨m', hu'⟩ := fieldWrite_any_image hu m
    obtain ⟨u', hwrite, hexec⟩ :=
      exec_wrf_of_accepted (s := { s with img := m }) src ⟨he, by omega, by omega, hb⟩
    rw [hu'] at hwrite
    cases hwrite
    exact ⟨m', hexec⟩

theorem exec_set_any_image {idx : Nat} {val : Byte} (h : exec (.set idx val) s = .next t) (m : Memory) :
    ∃ m', exec (.set idx val) { s with img := m } = .next { t with img := m' } := by
  rcases execSet_cases h with ⟨he, rfl⟩ | ⟨he, hi, rfl⟩ | ⟨he, hi, kind, off, u, hk, ho, hu, rfl⟩
  · exact ⟨m, exec_set_of_halted (s := { s with img := m }) idx val he⟩
  · exact ⟨m, exec_set_of_n_le (s := { s with img := m }) val he hi⟩
  · obtain ⟨m', hu'⟩ := fieldWrite_any_image hu m
    refine ⟨m', ?_⟩
    rw [exec_set_of_componentAt (s := { s with img := m }) val he hi ⟨hk, ho⟩, hu', complete_ok]
    rfl

end AnyImage

/-- Settles O38: a halted engine only answers, a running one writes `WIRE` and the latch. -/
theorem updFrame : Obligations.UpdFrame := by
  unfold Obligations.UpdFrame
  intro s
  cases he : s.status.err with
  | true =>
    exact ⟨_, exec_upd_of_halted he, fun _ => rfl, rfl, rfl, rfl, rfl, rfl, rfl, id, rfl⟩
  | false =>
    exact ⟨_, exec_upd_of_running he, fun _ => rfl, rfl, rfl, rfl, rfl, rfl, rfl, fun _ => rfl, rfl⟩

/-- Settles O40: the wire and the image of a reset state are empty. -/
theorem firstUpdateSendsZeros : Obligations.FirstUpdateSendsZeros := by
  unfold Obligations.FirstUpdateSendsZeros
  intro cfg
  refine ⟨_, exec_upd_of_running rfl, ?_⟩
  rw [resetWith_wire, List.nil_append, updBurst, bitsBackwards_of_clear _ (getBit_resetWith · cfg), List.map_replicate]

/-- Settles O42: an `UPD` ends the wire with its own transmission, as long as the chain; no other command sends anything. -/
theorem displayShowsLatchedImage : Obligations.DisplayShowsLatchedImage := by
  unfold Obligations.DisplayShowsLatchedImage
  refine ⟨fun s t he h => ?_, fun i s t chain hi h => ?_⟩
  · rw [exec_upd_of_running he] at h
    cases h
    have hshown := displayedBits_append_transmission s.wire (bitsBackwards s.layout.bufLen s)
    rwa [bitsBackwards_length] at hshown
  · rw [onlyUpdEmitsWireEvents.1 i s t hi h]

/-- Settles O49: the checks, the responses and the loop's accesses do not read the image; `UPD` sends it and reads it for nothing
else. -/
theorem imageIsPrivate : Obligations.ImageIsPrivate := by
  unfold Obligations.ImageIsPrivate
  intro i s t m h
  cases i with
  | wrf w off src =>
    obtain ⟨m', hm'⟩ := exec_wrf_any_image h m
    exact ⟨m', t.wire, hm', fun _ => rfl⟩
  | set idx val =>
    obtain ⟨m', hm'⟩ := exec_set_any_image h m
    exact ⟨m', t.wire, hm', fun _ => rfl⟩
  | upd =>
    cases he : s.status.err with
    | true =>
      rw [exec_upd_of_halted he] at h
      cases h
      exact ⟨m, s.wire, exec_upd_of_halted (s := { s with img := m }) he, fun _ => rfl⟩
    | false =>
      rw [exec_upd_of_running he] at h
      cases h
      exact ⟨m, _, exec_upd_of_running (s := { s with img := m }) he, fun hne => absurd rfl hne⟩

/-- Settles O52: fields end at or before `TOTAL_BITS`, so a `SET` changes no pad bit; `UPD` changes no bit at all, a `WRF` those of
its field. -/
theorem padBitsChangeOnlyByRawWrite : Obligations.PadBitsChangeOnlyByRawWrite := by
  unfold Obligations.PadBitsChangeOnlyByRawWrite
  refine ⟨fun cfg p _ => getBit_resetWith p cfg, fun s h => ?_⟩
  have hbuf := h.bufLen_eq
  refine ⟨by omega, by omega, fun i kind off p hc hp => ?_, fun i t p hexec hpad hchanged => ?_⟩
  · have hend := h.componentAt_end_le_totalBits hc
    omega
  · cases i with
    | wrf w off src =>
      obtain ⟨houtside, -⟩ := wrfPreservesBitsOutsideField s t w off src hexec
      exact ⟨w, off, src, rfl, by_contra fun hp => hchanged (houtside p hp)⟩
    | set idx val =>
      obtain ⟨-, -, hkept⟩ := setTouchesNoOtherComponent s t idx val h hexec
      exact absurd (hkept p hpad) hchanged
    | upd =>
      obtain ⟨t', ht', -, himg, -⟩ := updFrame s
      rw [hexec] at ht'
      cases ht'
      exact absurd (getBit_of_img_eq himg p) hchanged

/-- Settles O53: the reset state meets the invariant and its components stand where `build` puts them, so the `SET` writes its
pattern onto a clear image. -/
theorem resetChoosesTables : Obligations.ResetChoosesTables := by
  unfold Obligations.ResetChoosesTables
  intro s cfg cw rest idx val kind hp hk hkind hd
  have hinv : EngineInv { State.resetWith cfg with port := rest } := (engineInv_resetWith hk).with_port rest
  have hidx : idx < cfg.kinds.length := (List.getElem?_eq_some_iff.mp hkind).1
  have hc : ComponentAt { State.resetWith cfg with port := rest } idx kind (bitsBefore cfg.alphaWidth cfg.kinds idx) :=
    ⟨hkind, build_offs_getElem _ _ hidx⟩
  obtain ⟨-, -, -, u, hset, hbits, hframe, hresponses⟩ :=
    setWritesEncodedValue _ idx val kind _ hinv rfl hidx hc
  have hstep : step { State.resetWith cfg with port := .command cw :: rest } = .next u :=
    (step_of_decode_ok rfl rfl hd).trans hset
  refine ⟨_, u, step_reset_of_le hp hk, hstep, hresponses, hframe.port, rfl, hframe.parameters, fun p => ?_⟩
  have hclear : getBit p { State.resetWith cfg with port := rest } = false := getBit_resetWith p cfg
  rw [hbits, hclear]
  rfl

end Sys2Proof.Machine
end
